-- ==== Sys2Proof/Word.lean ====
section
/-! DEFINITION. The word types of the machine (00_scope.md R6, R8, R9). -/

namespace Sys2Proof

/-- A memory byte, a general register, an 8-bit immediate: 8 bits, bit 0 the least significant (R8). -/
abbrev Byte := BitVec 8

/-- The address register, the program counter, a call-stack entry, an instruction word: 16 bits. -/
abbrev Word := BitVec 16

/-- A register index, the fields `X` and `Y` of a word (30_encoding.md R81). -/
abbrev Reg := BitVec 4

/-- A 12-bit address literal, the field `NNN` of a word (30_encoding.md R81). -/
abbrev Addr12 := BitVec 12

/-- A key code `0x0 .. 0xF` (00_scope.md R6, `NKEYS`). -/
abbrev Key := BitVec 4

end Sys2Proof
end

