-- ==== Sys2Proof/Config.lean ====
section
/-! DEFINITION. The parameters of the machine (00_scope.md R6): those the source document fixes are constants, the OPEN
ones are the fields of Config; and the one free value of the model, the random byte. -/

namespace Sys2Proof

/-- `MEM_SIZE`: 4096 bytes (R6, 20_memory.md R50). -/
abbrev memSize : Nat := 4096

/-- `ORIGIN`: where a program is loaded, and the reset value of `pc` (R6). -/
abbrev origin : Nat := 0x200

/-- `SHIFT_SRC` (R6): which register the shift instructions shift. -/
inductive ShiftSrc where
  /-- `Vx` is shifted in place and `Y` is ignored. -/
  | x
  /-- `Vy` is shifted into `Vx`. -/
  | y
  deriving DecidableEq, Repr

/-- The OPEN parameters of R6. Fixed while a machine runs; held in its state so that a claim can quantify over them. -/
structure Config where
  /-- `DISPLAY_W`, columns. -/
  displayW : Nat
  /-- `DISPLAY_H`, rows. -/
  displayH : Nat
  /-- `STACK_DEPTH`; none is the unbounded stack that 92_eei_decisions.md D2 also admits. -/
  stackDepth : Option Nat
  /-- `FONT_BASE`. -/
  fontBase : Nat
  /-- `GLYPH_BYTES`. -/
  glyphBytes : Nat
  /-- `FONT_DATA`. -/
  fontData : List Byte
  /-- `SHIFT_SRC`. -/
  shiftSrc : ShiftSrc
  deriving DecidableEq, Repr

/-- FREE VALUE. The byte a uniformly random provider supplies to the n-th executed `RND` (10_state.md R34, 41_alu.md R132):
any value, so it has no body (assumption 3). -/
opaque Config.randomByte : Nat → Byte

end Sys2Proof
end

