-- ==== Sys2Proof/Syntax.lean ====
section
/-! DEFINITION. The instructions: one constructor per row of the opcode map (30_encoding.md R85), its operands the fields of
R81 that the row's format uses (R82). -/

namespace Sys2Proof

/-- The 34 instructions of 30_encoding.md R85, in the table's order. -/
inductive Instr where
  /-- `00E0` `CLS` (R140). -/
  | cls
  /-- `00EE` `RET` (R104). -/
  | ret
  /-- `1NNN` `JP NNN` (R105). -/
  | jp (nnn : Addr12)
  /-- `2NNN` `CALL NNN` (R106). -/
  | call (nnn : Addr12)
  /-- `3XNN` `SE Vx, NN` (R107). -/
  | seImm (x : Reg) (nn : Byte)
  /-- `4XNN` `SNE Vx, NN` (R109). -/
  | sneImm (x : Reg) (nn : Byte)
  /-- `5XY0` `SE Vx, Vy` (R110). -/
  | seReg (x y : Reg)
  /-- `6XNN` `LD Vx, NN` (R120). -/
  | ldImm (x : Reg) (nn : Byte)
  /-- `7XNN` `ADD Vx, NN` (R121). -/
  | addImm (x : Reg) (nn : Byte)
  /-- `8XY0` `LD Vx, Vy` (R122). -/
  | ldReg (x y : Reg)
  /-- `8XY1` `OR Vx, Vy` (R123). -/
  | orReg (x y : Reg)
  /-- `8XY2` `AND Vx, Vy` (R124). -/
  | andReg (x y : Reg)
  /-- `8XY3` `XOR Vx, Vy` (R125). -/
  | xorReg (x y : Reg)
  /-- `8XY4` `ADD Vx, Vy` (R127). -/
  | addReg (x y : Reg)
  /-- `8XY5` `SUB Vx, Vy` (R128). -/
  | subReg (x y : Reg)
  /-- `8XY6` `SHR Vx` with an optional `Vy` (R129); the `Y` field is kept whatever SHIFT_SRC is (R88, R93). -/
  | shr (x y : Reg)
  /-- `8XY7` `SUBN Vx, Vy` (R130). -/
  | subnReg (x y : Reg)
  /-- `8XYE` `SHL Vx` with an optional `Vy` (R131); the `Y` field is kept whatever SHIFT_SRC is (R88, R93). -/
  | shl (x y : Reg)
  /-- `9XY0` `SNE Vx, Vy` (R111). -/
  | sneReg (x y : Reg)
  /-- `ANNN` `LD I, NNN` (R160). -/
  | ldI (nnn : Addr12)
  /-- `BNNN` `JP V0, NNN` (R108). -/
  | jpV0 (nnn : Addr12)
  /-- `CXNN` `RND Vx, NN` (R132). -/
  | rnd (x : Reg) (nn : Byte)
  /-- `DXYN` `DRW Vx, Vy, N` (R143); `n` is a count of rows, 0 to 15 (R83). -/
  | drw (x y : Reg) (n : Nat)
  /-- `EX9E` `SKP Vx` (R150). -/
  | skp (x : Reg)
  /-- `EXA1` `SKNP Vx` (R151). -/
  | sknp (x : Reg)
  /-- `FX07` `LD Vx, DT` (R153). -/
  | ldVxDt (x : Reg)
  /-- `FX0A` `LD Vx, K` (R152). -/
  | ldVxK (x : Reg)
  /-- `FX15` `LD DT, Vx` (R154). -/
  | ldDtVx (x : Reg)
  /-- `FX18` `LD ST, Vx` (R155). -/
  | ldStVx (x : Reg)
  /-- `FX1E` `ADD I, Vx` (R161). -/
  | addI (x : Reg)
  /-- `FX29` `LD F, Vx` (R162). -/
  | ldF (x : Reg)
  /-- `FX33` `LD B, Vx` (R163). -/
  | ldB (x : Reg)
  /-- `FX55` `LD [I], Vx` (R165). -/
  | storeRegs (x : Reg)
  /-- `FX65` `LD Vx, [I]` (R166). -/
  | loadRegs (x : Reg)
  deriving DecidableEq, Repr

end Sys2Proof
end

