-- ==== Sys2Proof/Decode.lean ====
section
/-! DEFINITION. The decoder and the encoder (30_encoding.md R80 to R93). -/

namespace Sys2Proof

/-! ## The fields of a word (R81) -/

/-- `G = op[15:12]`, the operation group. -/
def fieldG (op : Word) : BitVec 4 := op.extractLsb' 12 4

/-- `X = op[11:8]`. -/
def fieldX (op : Word) : Reg := op.extractLsb' 8 4

/-- `Y = op[7:4]`. -/
def fieldY (op : Word) : Reg := op.extractLsb' 4 4

/-- `N = op[3:0]`. -/
def fieldN (op : Word) : BitVec 4 := op.extractLsb' 0 4

/-- `NN = op[7:0]`. -/
def fieldNN (op : Word) : Byte := op.extractLsb' 0 8

/-- `NNN = op[11:0]`. -/
def fieldNNN (op : Word) : Addr12 := op.extractLsb' 0 12

/-- The word of the two bytes of an instruction, `op[15:8] = hi` and `op[7:0] = lo` (20_memory.md R55). -/
def wordOfBytes (hi lo : Byte) : Word := hi ++ lo

/-! ## Decoding (R86) -/

/-- Group 0: the whole word must be `00E0` or `00EE`. -/
def decodeGroup0 (op : Word) : Option Instr :=
  if op = 0x00E0#16 then some .cls
  else if op = 0x00EE#16 then some .ret
  else none

/-- Group 8: `N` selects the operation. -/
def decodeGroup8 (x y : Reg) (n : BitVec 4) : Option Instr :=
  match n.toNat with
  | 0x0 => some (.ldReg x y)
  | 0x1 => some (.orReg x y)
  | 0x2 => some (.andReg x y)
  | 0x3 => some (.xorReg x y)
  | 0x4 => some (.addReg x y)
  | 0x5 => some (.subReg x y)
  | 0x6 => some (.shr x y)
  | 0x7 => some (.subnReg x y)
  | 0xE => some (.shl x y)
  | _ => none

/-- Group E: `NN` must be 0x9E or 0xA1. -/
def decodeGroupE (x : Reg) (nn : Byte) : Option Instr :=
  if nn = 0x9E#8 then some (.skp x)
  else if nn = 0xA1#8 then some (.sknp x)
  else none

/-- Group F: `NN` must be one of nine values. -/
def decodeGroupF (x : Reg) (nn : Byte) : Option Instr :=
  if nn = 0x07#8 then some (.ldVxDt x)
  else if nn = 0x0A#8 then some (.ldVxK x)
  else if nn = 0x15#8 then some (.ldDtVx x)
  else if nn = 0x18#8 then some (.ldStVx x)
  else if nn = 0x1E#8 then some (.addI x)
  else if nn = 0x29#8 then some (.ldF x)
  else if nn = 0x33#8 then some (.ldB x)
  else if nn = 0x55#8 then some (.storeRegs x)
  else if nn = 0x65#8 then some (.loadRegs x)
  else none

/-- Decoding of a word: its row of the opcode map with the field values, or none, the `unknown` of R86. -/
def decodeWord (op : Word) : Option Instr :=
  match (fieldG op).toNat with
  | 0x0 => decodeGroup0 op
  | 0x1 => some (.jp (fieldNNN op))
  | 0x2 => some (.call (fieldNNN op))
  | 0x3 => some (.seImm (fieldX op) (fieldNN op))
  | 0x4 => some (.sneImm (fieldX op) (fieldNN op))
  | 0x5 => if fieldN op = 0#4 then some (.seReg (fieldX op) (fieldY op)) else none
  | 0x6 => some (.ldImm (fieldX op) (fieldNN op))
  | 0x7 => some (.addImm (fieldX op) (fieldNN op))
  | 0x8 => decodeGroup8 (fieldX op) (fieldY op) (fieldN op)
  | 0x9 => if fieldN op = 0#4 then some (.sneReg (fieldX op) (fieldY op)) else none
  | 0xA => some (.ldI (fieldNNN op))
  | 0xB => some (.jpV0 (fieldNNN op))
  | 0xC => some (.rnd (fieldX op) (fieldNN op))
  | 0xD => some (.drw (fieldX op) (fieldY op) (fieldN op).toNat)
  | 0xE => decodeGroupE (fieldX op) (fieldNN op)
  | 0xF => decodeGroupF (fieldX op) (fieldNN op)
  | _ => none

/-- What decoding finds at the head of a list of bytes. -/
inductive DecodeResult where
  /-- An instruction, and the bytes after it. -/
  | instr (i : Instr) (rest : List Byte)
  /-- The word is none of the opcode map (R87); executing it raises `UnknownOpcode`. -/
  | unknown (op : Word)
  /-- Fewer than the two bytes of an instruction (R80). -/
  | short
  deriving DecidableEq, Repr

/-- Decoding of any bytes: two of them make a word, the first its high byte (R80, 20_memory.md R55). -/
def decodeBytes : List Byte → DecodeResult
  | hi :: lo :: rest =>
    match decodeWord (wordOfBytes hi lo) with
    | some i => .instr i rest
    | none => .unknown (wordOfBytes hi lo)
  | _ => .short

/-! ## Encoding (R85, R93) -/

/-- The format FIXED and REG_REG and REG_REG_N: four nibbles. -/
def packNibbles (g x y n : BitVec 4) : Word := g ++ (x ++ (y ++ n))

/-- The formats REG_IMM and REG. -/
def packImm (g x : BitVec 4) (nn : Byte) : Word := g ++ (x ++ nn)

/-- The format ADDR. -/
def packAddr (g : BitVec 4) (nnn : Addr12) : Word := g ++ nnn

/-- The word of an instruction: the pattern of its row of R85 with the operands in their fields. A row count above 15,
which no word has, loses its high bits. -/
def encode : Instr → Word
  | .cls => 0x00E0#16
  | .ret => 0x00EE#16
  | .jp nnn => packAddr 0x1#4 nnn
  | .call nnn => packAddr 0x2#4 nnn
  | .seImm x nn => packImm 0x3#4 x nn
  | .sneImm x nn => packImm 0x4#4 x nn
  | .seReg x y => packNibbles 0x5#4 x y 0x0#4
  | .ldImm x nn => packImm 0x6#4 x nn
  | .addImm x nn => packImm 0x7#4 x nn
  | .ldReg x y => packNibbles 0x8#4 x y 0x0#4
  | .orReg x y => packNibbles 0x8#4 x y 0x1#4
  | .andReg x y => packNibbles 0x8#4 x y 0x2#4
  | .xorReg x y => packNibbles 0x8#4 x y 0x3#4
  | .addReg x y => packNibbles 0x8#4 x y 0x4#4
  | .subReg x y => packNibbles 0x8#4 x y 0x5#4
  | .shr x y => packNibbles 0x8#4 x y 0x6#4
  | .subnReg x y => packNibbles 0x8#4 x y 0x7#4
  | .shl x y => packNibbles 0x8#4 x y 0xE#4
  | .sneReg x y => packNibbles 0x9#4 x y 0x0#4
  | .ldI nnn => packAddr 0xA#4 nnn
  | .jpV0 nnn => packAddr 0xB#4 nnn
  | .rnd x nn => packImm 0xC#4 x nn
  | .drw x y n => packNibbles 0xD#4 x y (BitVec.ofNat 4 n)
  | .skp x => packImm 0xE#4 x 0x9E#8
  | .sknp x => packImm 0xE#4 x 0xA1#8
  | .ldVxDt x => packImm 0xF#4 x 0x07#8
  | .ldVxK x => packImm 0xF#4 x 0x0A#8
  | .ldDtVx x => packImm 0xF#4 x 0x15#8
  | .ldStVx x => packImm 0xF#4 x 0x18#8
  | .addI x => packImm 0xF#4 x 0x1E#8
  | .ldF x => packImm 0xF#4 x 0x29#8
  | .ldB x => packImm 0xF#4 x 0x33#8
  | .storeRegs x => packImm 0xF#4 x 0x55#8
  | .loadRegs x => packImm 0xF#4 x 0x65#8

/-- The high and the low byte of a word, as memory holds them (20_memory.md R55). -/
def highByte (op : Word) : Byte := op.extractLsb' 8 8

/-- The low byte of a word. -/
def lowByte (op : Word) : Byte := op.extractLsb' 0 8

/-- The two bytes of an instruction, the high byte first (R80). -/
def encodeBytes (i : Instr) : List Byte := [highByte (encode i), lowByte (encode i)]

/-! ## The opcode map as data (R85) -/

/-- The columns `mask` and `match` of an instruction's row of R85. -/
def opcodeRow : Instr → Word × Word
  | .cls => (0xFFFF#16, 0x00E0#16)
  | .ret => (0xFFFF#16, 0x00EE#16)
  | .jp _ => (0xF000#16, 0x1000#16)
  | .call _ => (0xF000#16, 0x2000#16)
  | .seImm _ _ => (0xF000#16, 0x3000#16)
  | .sneImm _ _ => (0xF000#16, 0x4000#16)
  | .seReg _ _ => (0xF00F#16, 0x5000#16)
  | .ldImm _ _ => (0xF000#16, 0x6000#16)
  | .addImm _ _ => (0xF000#16, 0x7000#16)
  | .ldReg _ _ => (0xF00F#16, 0x8000#16)
  | .orReg _ _ => (0xF00F#16, 0x8001#16)
  | .andReg _ _ => (0xF00F#16, 0x8002#16)
  | .xorReg _ _ => (0xF00F#16, 0x8003#16)
  | .addReg _ _ => (0xF00F#16, 0x8004#16)
  | .subReg _ _ => (0xF00F#16, 0x8005#16)
  | .shr _ _ => (0xF00F#16, 0x8006#16)
  | .subnReg _ _ => (0xF00F#16, 0x8007#16)
  | .shl _ _ => (0xF00F#16, 0x800E#16)
  | .sneReg _ _ => (0xF00F#16, 0x9000#16)
  | .ldI _ => (0xF000#16, 0xA000#16)
  | .jpV0 _ => (0xF000#16, 0xB000#16)
  | .rnd _ _ => (0xF000#16, 0xC000#16)
  | .drw _ _ _ => (0xF000#16, 0xD000#16)
  | .skp _ => (0xF0FF#16, 0xE09E#16)
  | .sknp _ => (0xF0FF#16, 0xE0A1#16)
  | .ldVxDt _ => (0xF0FF#16, 0xF007#16)
  | .ldVxK _ => (0xF0FF#16, 0xF00A#16)
  | .ldDtVx _ => (0xF0FF#16, 0xF015#16)
  | .ldStVx _ => (0xF0FF#16, 0xF018#16)
  | .addI _ => (0xF0FF#16, 0xF01E#16)
  | .ldF _ => (0xF0FF#16, 0xF029#16)
  | .ldB _ => (0xF0FF#16, 0xF033#16)
  | .storeRegs _ => (0xF0FF#16, 0xF055#16)
  | .loadRegs _ => (0xF0FF#16, 0xF065#16)

/-- The 34 rows of R85, mask then match, in the table's order. -/
def opcodeMap : List (Word × Word) :=
  [(0xFFFF#16, 0x00E0#16), (0xFFFF#16, 0x00EE#16), (0xF000#16, 0x1000#16), (0xF000#16, 0x2000#16),
   (0xF000#16, 0x3000#16), (0xF000#16, 0x4000#16), (0xF00F#16, 0x5000#16), (0xF000#16, 0x6000#16),
   (0xF000#16, 0x7000#16)] ++
  [(0xF00F#16, 0x8000#16), (0xF00F#16, 0x8001#16), (0xF00F#16, 0x8002#16), (0xF00F#16, 0x8003#16),
   (0xF00F#16, 0x8004#16), (0xF00F#16, 0x8005#16), (0xF00F#16, 0x8006#16), (0xF00F#16, 0x8007#16),
   (0xF00F#16, 0x800E#16), (0xF00F#16, 0x9000#16)] ++
  [(0xF000#16, 0xA000#16), (0xF000#16, 0xB000#16), (0xF000#16, 0xC000#16), (0xF000#16, 0xD000#16),
   (0xF0FF#16, 0xE09E#16), (0xF0FF#16, 0xE0A1#16)] ++
  [(0xF0FF#16, 0xF007#16), (0xF0FF#16, 0xF00A#16), (0xF0FF#16, 0xF015#16), (0xF0FF#16, 0xF018#16),
   (0xF0FF#16, 0xF01E#16), (0xF0FF#16, 0xF029#16), (0xF0FF#16, 0xF033#16), (0xF0FF#16, 0xF055#16),
   (0xF0FF#16, 0xF065#16)]

/-! ## The host's numbering of the opcode table -/

/-- The word the opcode table numbers `w`: its bits from `nbits` up are 0. Bit 0 is the least significant bit. -/
def tableWord (nbits w : Nat) : Word := BitVec.ofNat 16 (w % 2 ^ nbits)

/-- The instruction the decoder reads from the bytes of the table's word, laid out high byte first. -/
def decodeTableWord (nbits w : Nat) : Option Instr :=
  match decodeBytes [highByte (tableWord nbits w), lowByte (tableWord nbits w)] with
  | .instr i _ => some i
  | .unknown _ => none
  | .short => none

end Sys2Proof
end

