-- ==== Sys2Proof/Machine/Params.lean ====
section
/-! DEFINITION. The default values of the OPEN parameters (00_scope.md R6) and the constraints every rule assumes (R7). -/

namespace Sys2Proof

/-- `FONT_DATA`: the sixteen glyphs of 10_state.md R38, five rows each. -/
def standardFont : List Byte :=
  [0xF0#8, 0x90#8, 0x90#8, 0x90#8, 0xF0#8,  0x20#8, 0x60#8, 0x20#8, 0x20#8, 0x70#8,
   0xF0#8, 0x10#8, 0xF0#8, 0x80#8, 0xF0#8,  0xF0#8, 0x10#8, 0xF0#8, 0x10#8, 0xF0#8,
   0x90#8, 0x90#8, 0xF0#8, 0x10#8, 0x10#8,  0xF0#8, 0x80#8, 0xF0#8, 0x10#8, 0xF0#8] ++
  [0xF0#8, 0x80#8, 0xF0#8, 0x90#8, 0xF0#8,  0xF0#8, 0x10#8, 0x20#8, 0x40#8, 0x40#8,
   0xF0#8, 0x90#8, 0xF0#8, 0x90#8, 0xF0#8,  0xF0#8, 0x90#8, 0xF0#8, 0x10#8, 0xF0#8,
   0xF0#8, 0x90#8, 0xF0#8, 0x90#8, 0x90#8,  0xE0#8, 0x90#8, 0xE0#8, 0x90#8, 0xE0#8] ++
  [0xF0#8, 0x80#8, 0x80#8, 0x80#8, 0xF0#8,  0xE0#8, 0x90#8, 0x90#8, 0x90#8, 0xE0#8,
   0xF0#8, 0x80#8, 0xF0#8, 0x80#8, 0xF0#8,  0xF0#8, 0x80#8, 0xF0#8, 0x80#8, 0x80#8]

/-- The parameters at their default values (R6). -/
def Config.standard : Config where
  displayW := 64
  displayH := 32
  stackDepth := some 16
  fontBase := 0x000
  glyphBytes := 5
  fontData := standardFont
  shiftSrc := .x

/-- The constraints of R7, and that `FONT_DATA` holds sixteen glyphs of `GLYPH_BYTES` rows (10_state.md R38). The
constraint `ORIGIN + 2 <= MEM_SIZE` is one of constants. -/
def Config.wf (c : Config) : Bool :=
  1 ≤ c.displayW && 1 ≤ c.displayH && c.stackDepth != some 0 &&
    c.fontBase + 16 * c.glyphBytes ≤ origin && c.fontData.length == 16 * c.glyphBytes

end Sys2Proof
end

