-- ==== Sys2Proof/Machine/State.lean ====
section
/-! DEFINITION. The state of the machine (10_state.md R20 to R41), the reasons a step can stop, and reset. -/

namespace Sys2Proof.Machine

/-- The four fatal conditions (60_exceptions.md R200). The spec describes what each does to the state (R204), so a step that
meets one answers a NEXT state whose FAULT holds its record, never `Host.Outcome.fault` (assumption 4). -/
inductive Fault where
  /-- The fetched word is no instruction; raised by decoding in the step (R102). Recorded as the spec says: safe. -/
  | unknownOpcode
  /-- An effective address is `MEM_SIZE` or more; raised by the fetch, `DRW`, `LD B`, `LD [I]` and `LD Vx,[I]` (R67).
  Recorded as the spec says: safe. -/
  | memoryOutOfBounds
  /-- `RET` with an empty call stack; raised by `RET` (R28). Recorded as the spec says: safe. -/
  | stackUnderflow
  /-- `CALL` with a full call stack; raised by `CALL` (R27). The spec's own bound, safe: the model halts where an unbounded
  stack goes on, and the unbounded stack is the configuration `stackDepth := none`. -/
  | stackOverflow
  deriving DecidableEq, Repr

/-- Why the model gives no next state. -/
inductive Refusal where
  /-- An instruction without a meaning yet; only an arm of `exec` answers it. Safe. -/
  | notModelled (mnemonic : String)
  /-- The step samples, or the host sets, a snapshot that breaks the host's duties; the spec puts it outside itself and asks
  for a refusal (10_state.md R33). Raised by `step` and `State.setInput`. Safe. -/
  | inconsistentInput
  /-- The parameters break the constraints that every rule assumes (00_scope.md R7). Raised by `step`. Safe. -/
  | badConfiguration
  /-- The host loads more than `MEM_SIZE - ORIGIN` bytes; the whole load is refused (70_reset_and_hazards.md R233). Raised by
  `State.load`. Safe. -/
  | imageTooLong
  deriving DecidableEq, Repr

/-- The record of a fault, `kind, code, at_pc, opcode, address` (R203); `code` is `FaultRecord.code`, computed from `kind` (assumption 13). -/
structure FaultRecord where
  /-- `kind`. -/
  kind : Fault
  /-- `at_pc`: the address of the faulting instruction. -/
  atPc : Word
  /-- `opcode`: the fetched word, none when the fetch itself faulted. -/
  opcode : Option Word
  /-- `address`: the failing effective address, an unbounded integer, none for a kind that has no address. -/
  address : Option Nat
  deriving DecidableEq, Repr

/-- The input snapshot `IN` (10_state.md R32). -/
structure Input where
  /-- `IN.keys`: bit `k` is 1 when key `k` is pressed. -/
  keys : BitVec 16
  /-- `IN.last`: the last pressed key. -/
  last : Option Key
  deriving DecidableEq, Repr

/-- The snapshot with every key released. -/
def Input.released : Input := { keys := 0#16, last := none }

/-- The state of one machine (10_state.md, section 1), the inputs of its steps (R32, R34) and its parameters (00_scope.md R6). -/
structure State where
  /-- The OPEN parameters; no instruction changes them (assumption 1). -/
  cfg : Config
  /-- `V0` .. `VF` (R20). -/
  x : Vector Byte 16
  /-- The address register `I` (R22). -/
  i : Word
  /-- The program counter (R23). -/
  pc : Word
  /-- `STACK`, the most recently pushed entry last (R26). -/
  stack : List Word
  /-- `MEM`: the cells that differ from the reset contents, addresses rising (R29, assumption 7). -/
  mem : List Host.Cell
  /-- `FB`: `DISPLAY_H` rows of `DISPLAY_W` pixels, true for on (R30). -/
  fb : List (List Bool)
  /-- `DT` (R35). -/
  dt : Byte
  /-- `FAULT` (R36). -/
  fault : Option FaultRecord
  /-- `IN`: the snapshot this step sees (R32, assumption 2). -/
  input : Input
  /-- The model's own: the snapshots the host supplies to the coming steps, one a step (assumption 2). -/
  pending : List Input
  /-- The model's own: the bytes a substituted fixed-sequence random source still supplies (R34, assumption 3). -/
  random : List Byte
  /-- The model's own: how many random bytes were drawn; the free value is applied to it (assumption 3). -/
  draws : Nat
  deriving DecidableEq, Repr

/-- What a step or an instruction answers. -/
abbrev Result := Host.Outcome State Fault Refusal

/-- A machine right after its construction with given parameters (10_state.md R41, 70_reset_and_hazards.md R230). -/
def State.resetWith (c : Config) : State where
  cfg := c
  x := Vector.replicate 16 0x00#8
  i := 0x0000#16
  pc := 0x0200#16
  stack := []
  mem := []
  fb := List.replicate c.displayH (List.replicate c.displayW false)
  dt := 0x00#8
  fault := none
  input := Input.released
  pending := []
  random := []
  draws := 0

/-- A machine right after its construction with the default parameters. -/
def State.reset : State := State.resetWith Config.standard

end Sys2Proof.Machine
end

