-- ==== Sys2Proof/Machine/Ops.lean ====
section
/-! DEFINITION. The primitives through which a rule touches state (00_scope.md R10): registers, memory, call stack, display,
timer, input and random port, raising a fault, and the fetch. -/

namespace Sys2Proof.Machine

/-! ## General registers, `I`, `pc`, `DT` -/

/-- `x[r]` (10_state.md R20). -/
def State.reg (s : State) (r : Reg) : Byte := s.x[r.toNat]'(by have := r.isLt; omega)

/-- `x[r] <- v`. -/
def State.setReg (s : State) (r : Reg) (v : Byte) : State :=
  { s with x := s.x.set r.toNat v (by have := r.isLt; omega) }

/-- `VF`, the flag register (10_state.md R39). -/
def regF : Reg := 0xF#4

/-- `I <- v`. -/
def State.setI (s : State) (v : Word) : State := { s with i := v }

/-- `pc <- target`, the commit of a step (40_control_flow.md R103). -/
def State.setPc (s : State) (v : Word) : State := { s with pc := v }

/-- `DT <- v`. -/
def State.setDt (s : State) (v : Byte) : State := { s with dt := v }

/-- The default `next_pc`, committed: `pc + 2` modulo 65536 (R103). -/
def State.advance (s : State) : State := s.setPc (s.pc + 2#16)

/-- The `next_pc` of a skip: `pc + 4` modulo 65536 when the condition holds, else `pc + 2` (40_control_flow.md R112). -/
def State.skipIf (s : State) (c : Bool) : State := if c then s.setPc (s.pc + 4#16) else s.advance

/-- Registers `V0, V1, ...` take the bytes of a list in order; a register past its end keeps its value (44_address_memory.md R166). -/
def State.setRegs (s : State) (bytes : List Byte) : State :=
  { s with x := Vector.ofFn fun k => bytes.getD k.val s.x[k] }

/-- The values of `V0 .. Vx` in ascending index order (44_address_memory.md R165). -/
def State.regsUpTo (s : State) (x : Reg) : List Byte := s.x.toList.take (x.toNat + 1)

/-! ## Memory -/

/-- What an address that the memory list does not name reads as: the reset contents, `FONT_DATA` at `FONT_BASE` and 0x00
elsewhere (10_state.md R38, R41). -/
def Memory.unlisted (c : Config) (a : Nat) : Byte :=
  if c.fontBase ≤ a then c.fontData.getD (a - c.fontBase) 0x00#8 else 0x00#8

/-- The byte a memory list holds at an address. -/
def Memory.read (c : Config) : List Host.Cell → Nat → Byte
  | [], a => Memory.unlisted c a
  | (b, v) :: m, a => if a = b then v else Memory.read c m a

/-- The list without its entries for an address. -/
def Memory.erase (m : List Host.Cell) (a : Nat) : List Host.Cell := m.filter fun cell => cell.1 != a

/-- The list with an entry put before the first larger address. -/
def Memory.insert : List Host.Cell → Nat → Byte → List Host.Cell
  | [], a, v => [(a, v)]
  | (b, w) :: m, a, v => if a < b then (a, v) :: (b, w) :: m else (b, w) :: Memory.insert m a v

/-- The list after a write: the address has an entry exactly when it differs from its reset contents. -/
def Memory.write (c : Config) (m : List Host.Cell) (a : Nat) (v : Byte) : List Host.Cell :=
  if v = Memory.unlisted c a then Memory.erase m a else Memory.insert (Memory.erase m a) a v

/-- The canonical form: addresses strictly rising and below `MEM_SIZE`, no entry equal to the reset contents. -/
abbrev Memory.wf (c : Config) (m : List Host.Cell) : Prop :=
  m.Pairwise (fun p q => p.1 < q.1) ∧ ∀ p ∈ m, p.1 < memSize ∧ p.2 ≠ Memory.unlisted c p.1

/-- `MEM[a]`, without the bounds test. -/
def State.byteAt (s : State) (a : Nat) : Byte := Memory.read s.cfg s.mem a

/-- `MEM[a] <- v`, without the bounds test. -/
def State.poke (s : State) (a : Nat) (v : Byte) : State := { s with mem := Memory.write s.cfg s.mem a v }

/-- `MemRead(a, 1)` (20_memory.md R52): the byte, or the address that is out of bounds. -/
def State.memRead (s : State) (a : Nat) : Except Nat Byte :=
  if memSize ≤ a then .error a else .ok (s.byteAt a)

/-- `MemWrite(a, 1, v)` (20_memory.md R53): the state, or the address that is out of bounds. -/
def State.memWrite (s : State) (a : Nat) (v : Byte) : Except Nat State :=
  if memSize ≤ a then .error a else .ok (s.poke a v)

/-- The smallest of `n` consecutive effective addresses that is out of bounds (20_memory.md R54, R67). -/
def firstOutOfBounds (base n : Nat) : Option Nat :=
  ((List.range n).map (base + ·)).find? fun a => decide (memSize ≤ a)

/-- The bytes at `n` consecutive addresses, all tested before the first is read (R67). -/
def State.memReads (s : State) (base n : Nat) : Except Nat (List Byte) :=
  match firstOutOfBounds base n with
  | some a => .error a
  | none => .ok ((List.range n).map fun k => s.byteAt (base + k))

/-- Bytes stored at consecutive addresses in ascending order, without the bounds test. -/
def State.pokes : State → Nat → List Byte → State
  | s, _, [] => s
  | s, a, v :: vs => (s.poke a v).pokes (a + 1) vs

/-- Bytes stored at consecutive addresses, all addresses tested before the first is written (R67). -/
def State.memWrites (s : State) (base : Nat) (bytes : List Byte) : Except Nat State :=
  match firstOutOfBounds base bytes.length with
  | some a => .error a
  | none => .ok (s.pokes base bytes)

/-! ## Call stack -/

/-- `STACK <- v`. -/
def State.setStack (s : State) (v : List Word) : State := { s with stack := v }

/-- `STACK` holds `STACK_DEPTH` entries or more (10_state.md R27); an unbounded stack never does. -/
def State.stackFull (s : State) : Bool :=
  match s.cfg.stackDepth with
  | some d => decide (d ≤ s.stack.length)
  | none => false

/-- `Push(v)` (R27): none when the stack is full. -/
def State.push (s : State) (v : Word) : Option State :=
  if s.stackFull then none else some (s.setStack (s.stack ++ [v]))

/-- `Pop()` (10_state.md R28): the last entry and the state without it; none when the stack is empty. -/
def State.pop (s : State) : Option (Word × State) :=
  match s.stack.getLast? with
  | none => none
  | some v => some (v, s.setStack s.stack.dropLast)

/-! ## Display (42_display.md) -/

/-- `FB[r][c]`; off outside the grid. -/
def Display.pixel (fb : List (List Bool)) (r c : Nat) : Bool := (fb.getD r []).getD c false

/-- `FB[r][c] <- b`; nothing outside the grid. -/
def Display.setPixel (fb : List (List Bool)) (r c : Nat) (b : Bool) : List (List Bool) :=
  fb.set r ((fb.getD r []).set c b)

/-- The grid with every pixel off (R140). -/
def Display.blank (c : Config) : List (List Bool) := List.replicate c.displayH (List.replicate c.displayW false)

/-- The grid has `DISPLAY_H` rows of `DISPLAY_W` pixels (10_state.md R30). -/
def Display.wf (c : Config) (fb : List (List Bool)) : Bool :=
  fb.length == c.displayH && fb.all fun row => row.length == c.displayW

/-- The sprite's pixel in column `col` of a row byte: the most significant bit is column 0 (R141). -/
def Display.spriteBit (b : Byte) (col : Nat) : Bool := b.getLsbD (7 - col)

/-- One pixel operation of `DisplayDraw` (R142): its coordinates wrap on their own, it is XORed, a collision accumulates. -/
def Display.plot (c : Config) (b : Byte) (x0 y0 row : Nat) (acc : List (List Bool) × Bool) (col : Nat) :
    List (List Bool) × Bool :=
  let bit := Display.spriteBit b col
  let px := (x0 + col) % c.displayW
  let py := (y0 + row) % c.displayH
  let old := Display.pixel acc.1 py px
  (Display.setPixel acc.1 py px (old ^^ bit), acc.2 || (old && bit))

/-- The eight pixel operations of a sprite row, ascending columns. -/
def Display.drawRow (c : Config) (x0 y0 : Nat) (acc : List (List Bool) × Bool) (rb : Byte × Nat) :
    List (List Bool) × Bool :=
  (List.range 8).foldl (Display.plot c rb.1 x0 y0 rb.2) acc

/-- `DisplayDraw(bytes, x0, y0)` (R142): the grid after it and the collision bit. -/
def Display.draw (c : Config) (bytes : List Byte) (x0 y0 : Nat) (fb : List (List Bool)) : List (List Bool) × Bool :=
  bytes.zipIdx.foldl (Display.drawRow c x0 y0) (fb, false)

/-- `FB <- v`. -/
def State.setFb (s : State) (v : List (List Bool)) : State := { s with fb := v }

/-- `FB[r][c]` of a state. -/
def State.pixel (s : State) (r c : Nat) : Bool := Display.pixel s.fb r c

/-! ## Timer, input, random port -/

/-- The tick at the start of a step (43_input_timer.md R156): down by 1, staying at 0. -/
def State.tick (s : State) : State := if s.dt = 0#8 then s else s.setDt (s.dt - 1#8)

/-- The host's duties of a snapshot (10_state.md R33): the last key is pressed, and there is one unless no key is. -/
def Input.wf (n : Input) : Bool :=
  match n.last with
  | none => n.keys == 0#16
  | some k => n.keys.getLsbD k.toNat

/-- The snapshot of a step is sampled at its start (10_state.md R32): the next one the host supplied, else the one that stands. -/
def State.sample (s : State) : State :=
  match s.pending with
  | [] => s
  | n :: rest => { s with input := n, pending := rest }

/-- `RandomByte()` (10_state.md R34): the next byte of a substituted source, else the free value. -/
def State.randomByte (s : State) : Byte :=
  match s.random with
  | b :: _ => b
  | [] => Config.randomByte s.draws

/-- The state after one random byte was consumed. -/
def State.drawn (s : State) : State := { s with random := s.random.tail, draws := s.draws + 1 }

/-! ## Raising a fault, and the fetch -/

/-- The cause code of a fault (60_exceptions.md R200, R202). -/
def Fault.code : Fault → Nat
  | .unknownOpcode => 1
  | .memoryOutOfBounds => 2
  | .stackUnderflow => 3
  | .stackOverflow => 4

/-- The `code` of a fault record (R203). -/
def FaultRecord.code (f : FaultRecord) : Nat := f.kind.code

/-- `raise K(info)` (60_exceptions.md R203, R204): `FAULT` takes the record, `pc` stays, nothing else changes. -/
def State.raise (s : State) (k : Fault) (opcode : Option Word) (address : Option Nat) : State :=
  { s with fault := some { kind := k, atPc := s.pc, opcode := opcode, address := address } }

/-- A fault of the execute stage records the instruction's word (R203). -/
def State.raiseExec (s : State) (k : Fault) (i : Instr) (address : Option Nat) : State :=
  s.raise k (some (encode i)) address

/-- The fetch (40_control_flow.md R101): the two bytes at `pc`, big-endian, or the address that is out of bounds. -/
def State.fetch (s : State) : Except Nat Word :=
  match s.memRead s.pc.toNat with
  | .error a => .error a
  | .ok hi =>
    match s.memRead (s.pc.toNat + 1) with
    | .error a => .error a
    | .ok lo => .ok (wordOfBytes hi lo)

end Sys2Proof.Machine
end

