-- ==== Sys2Proof/Machine/Operands.lean ====
section
/-! DEFINITION. The operand forms of the instructions: where an effective address starts, immediates brought to a register's
width, the shifted operand, the key query, glyph addresses and decimal digits. -/

namespace Sys2Proof.Machine

/-- The one data addressing mode: register-indirect through `I`, an unbounded integer (44_address_memory.md R167, 20_memory.md R54). -/
def State.dataAddress (s : State) : Nat := s.i.toNat

/-- `zext_16(NNN)` (30_encoding.md R83). -/
def addrOfLiteral (nnn : Addr12) : Word := nnn.setWidth 16

/-- `zext_16(v)` of a register value. -/
def wordOfByte (v : Byte) : Word := v.setWidth 16

/-- `zext_8` of a key code (43_input_timer.md R152). -/
def byteOfKey (k : Key) : Byte := k.setWidth 8

/-- The operand of the shift instructions, by `SHIFT_SRC` (41_alu.md R129, R131). -/
def State.shiftOperand (s : State) (x y : Reg) : Byte :=
  match s.cfg.shiftSrc with
  | .x => s.reg x
  | .y => s.reg y

/-- `KeyPressed(v)` (43_input_timer.md R158): a value above 0xF names no key and is not pressed. -/
def State.keyPressed (s : State) (v : Byte) : Bool := decide (v.toNat ≤ 0xF) && s.input.keys.getLsbD v.toNat

/-- The address of a glyph, `FONT_BASE + GLYPH_BYTES * v` modulo 65536 (44_address_memory.md R162). -/
def State.glyphAddress (s : State) (v : Byte) : Word := BitVec.ofNat 16 (s.cfg.fontBase + s.cfg.glyphBytes * v.toNat)

/-- The hundreds, tens and ones of a byte (44_address_memory.md R163). -/
def decimalDigits (v : Byte) : List Byte :=
  [BitVec.ofNat 8 (v.toNat / 100), BitVec.ofNat 8 (v.toNat / 10 % 10), BitVec.ofNat 8 (v.toNat % 10)]

/-- The address register after a block move of `V0 .. Vx`: `I + X + 1` modulo 65536 (44_address_memory.md R164). -/
def State.blockEnd (s : State) (x : Reg) : Word := BitVec.ofNat 16 (s.i.toNat + x.toNat + 1)

end Sys2Proof.Machine
end

