-- ==== Sys2Proof/Machine/Flags.lean ====
section
/-! DEFINITION. The flag computations (10_state.md R39, 41_alu.md R127 to R133, 42_display.md R143) and the order in which a
result and its flag are written. -/

namespace Sys2Proof.Machine

/-- A flag write is a write of 0x00 or 0x01. -/
def flagByte (b : Bool) : Byte := if b then 0x01#8 else 0x00#8

/-- The carry of an addition: the unsigned sum exceeds 255 (R127). -/
def carryOut (a b : Byte) : Bool := decide (255 < a.toNat + b.toNat)

/-- No borrow of the subtraction `a - b` (R128, R130). -/
def noBorrow (a b : Byte) : Bool := decide (b.toNat ≤ a.toNat)

/-- The bit a right shift by one pushes out (R129). -/
def bitOutRight (v : Byte) : Bool := v.getLsbD 0

/-- The bit a left shift by one pushes out (R131). -/
def bitOutLeft (v : Byte) : Bool := v.getLsbD 7

/-- The result goes to `x[X]` and then the flag to `VF`, which wins when `X = 0xF` (41_alu.md R133). -/
def State.setWithFlag (s : State) (x : Reg) (result : Byte) (flag : Bool) : State :=
  (s.setReg x result).setReg regF (flagByte flag)

end Sys2Proof.Machine
end

