-- ==== Sys2Proof/Machine/AddressMemory.lean ====
section
/-! DEFINITION. Setting and adjusting `I`, the decimal store, block store and block load (44_address_memory.md R160 to R167). -/

namespace Sys2Proof.Machine

/-- `LD I, NNN` (R160). -/
def execLdI (nnn : Addr12) (s : State) : Result := .next (s.setI (addrOfLiteral nnn)).advance

/-- `ADD I, Vx` (R161): modulo 65536, `VF` untouched. -/
def execAddI (x : Reg) (s : State) : Result := .next (s.setI (s.i + wordOfByte (s.reg x))).advance

/-- `LD F, Vx` (R162). -/
def execLdF (x : Reg) (s : State) : Result := .next (s.setI (s.glyphAddress (s.reg x))).advance

/-- `LD B, Vx` (R163): three digits at `I`, `I + 1`, `I + 2`; `I` stays. -/
def execLdB (x : Reg) (s : State) : Result :=
  match s.memWrites s.dataAddress (decimalDigits (s.reg x)) with
  | .error a => .next (s.raiseExec .memoryOutOfBounds (.ldB x) (some a))
  | .ok s' => .next s'.advance

/-- `LD [I], Vx` (R165): `V0 .. Vx` are stored, then `I` advances by `X + 1`. -/
def execStoreRegs (x : Reg) (s : State) : Result :=
  match s.memWrites s.dataAddress (s.regsUpTo x) with
  | .error a => .next (s.raiseExec .memoryOutOfBounds (.storeRegs x) (some a))
  | .ok s' => .next (s'.setI (s.blockEnd x)).advance

/-- `LD Vx, [I]` (R166): `V0 .. Vx` are loaded, then `I` advances by `X + 1`. -/
def execLoadRegs (x : Reg) (s : State) : Result :=
  match s.memReads s.dataAddress (x.toNat + 1) with
  | .error a => .next (s.raiseExec .memoryOutOfBounds (.loadRegs x) (some a))
  | .ok bytes => .next ((s.setRegs bytes).setI (s.blockEnd x)).advance

end Sys2Proof.Machine
end

