-- ==== Sys2Proof/Machine/Alu.lean ====
section
/-! DEFINITION. Register loads, arithmetic, logic, shifts and the random byte (41_alu.md R120 to R134). None can fault and
each leaves `next_pc = pc + 2`. -/

namespace Sys2Proof.Machine

/-- `LD Vx, NN` (R120). -/
def execLdImm (x : Reg) (nn : Byte) (s : State) : Result := .next (s.setReg x nn).advance

/-- `ADD Vx, NN` (R121): modulo 256, no flag. -/
def execAddImm (x : Reg) (nn : Byte) (s : State) : Result := .next (s.setReg x (s.reg x + nn)).advance

/-- `LD Vx, Vy` (R122). -/
def execLdReg (x y : Reg) (s : State) : Result := .next (s.setReg x (s.reg y)).advance

/-- `OR Vx, Vy` (R123). -/
def execOrReg (x y : Reg) (s : State) : Result := .next (s.setReg x (s.reg x ||| s.reg y)).advance

/-- `AND Vx, Vy` (R124). -/
def execAndReg (x y : Reg) (s : State) : Result := .next (s.setReg x (s.reg x &&& s.reg y)).advance

/-- `XOR Vx, Vy` (R125). -/
def execXorReg (x y : Reg) (s : State) : Result := .next (s.setReg x (s.reg x ^^^ s.reg y)).advance

/-- `ADD Vx, Vy` (R127): the sum modulo 256, then the carry. -/
def execAddReg (x y : Reg) (s : State) : Result :=
  .next (s.setWithFlag x (s.reg x + s.reg y) (carryOut (s.reg x) (s.reg y))).advance

/-- `SUB Vx, Vy` (R128): `Vx - Vy` modulo 256, then no-borrow. -/
def execSubReg (x y : Reg) (s : State) : Result :=
  .next (s.setWithFlag x (s.reg x - s.reg y) (noBorrow (s.reg x) (s.reg y))).advance

/-- `SHR Vx` (R129): the operand divided by 2, then its old bit 0. -/
def execShr (x y : Reg) (s : State) : Result :=
  .next (s.setWithFlag x (s.shiftOperand x y >>> 1) (bitOutRight (s.shiftOperand x y))).advance

/-- `SUBN Vx, Vy` (R130): `Vy - Vx` modulo 256, then no-borrow. -/
def execSubnReg (x y : Reg) (s : State) : Result :=
  .next (s.setWithFlag x (s.reg y - s.reg x) (noBorrow (s.reg y) (s.reg x))).advance

/-- `SHL Vx` (R131): the operand doubled modulo 256, then its old bit 7. -/
def execShl (x y : Reg) (s : State) : Result :=
  .next (s.setWithFlag x (s.shiftOperand x y <<< 1) (bitOutLeft (s.shiftOperand x y))).advance

/-- `RND Vx, NN` (R132): one random byte is consumed, and masked. -/
def execRnd (x : Reg) (nn : Byte) (s : State) : Result := .next (s.drawn.setReg x (s.randomByte &&& nn)).advance

end Sys2Proof.Machine
end

