-- ==== Sys2Proof/Machine/ControlFlow.lean ====
section
/-! DEFINITION. Return, jumps, call and the four register skips (40_control_flow.md R104 to R112). -/

namespace Sys2Proof.Machine

/-- `RET` (R104): `pc` takes the popped value as it is. -/
def execRet (s : State) : Result :=
  match s.pop with
  | none => .next (s.raiseExec .stackUnderflow .ret none)
  | some (t, s') => .next (s'.setPc t)

/-- `JP NNN` (R105). -/
def execJp (nnn : Addr12) (s : State) : Result := .next (s.setPc (addrOfLiteral nnn))

/-- `CALL NNN` (R106): the address after the call is pushed. -/
def execCall (nnn : Addr12) (s : State) : Result :=
  match s.push (s.pc + 2#16) with
  | none => .next (s.raiseExec .stackOverflow (.call nnn) none)
  | some s' => .next (s'.setPc (addrOfLiteral nnn))

/-- `SE Vx, NN` (R107). -/
def execSeImm (x : Reg) (nn : Byte) (s : State) : Result := .next (s.skipIf (s.reg x == nn))

/-- `SNE Vx, NN` (R109). -/
def execSneImm (x : Reg) (nn : Byte) (s : State) : Result := .next (s.skipIf (s.reg x != nn))

/-- `SE Vx, Vy` (R110). -/
def execSeReg (x y : Reg) (s : State) : Result := .next (s.skipIf (s.reg x == s.reg y))

/-- `SNE Vx, Vy` (R111). -/
def execSneReg (x y : Reg) (s : State) : Result := .next (s.skipIf (s.reg x != s.reg y))

/-- `JP V0, NNN` (R108): always `V0`. -/
def execJpV0 (nnn : Addr12) (s : State) : Result :=
  .next (s.setPc (addrOfLiteral nnn + wordOfByte (s.reg 0x0#4)))

end Sys2Proof.Machine
end

