-- ==== Sys2Proof/Machine/Display.lean ====
section
/-! DEFINITION. Clear and sprite draw (42_display.md R140 to R146). -/

namespace Sys2Proof.Machine

/-- `CLS` (R140): every pixel off, `VF` untouched. -/
def execCls (s : State) : Result := .next (s.setFb (Display.blank s.cfg)).advance

/-- `DRW Vx, Vy, N` (R143): all addresses are tested, the bytes read, the sprite drawn at the old `Vx`, `Vy`, and `VF` takes
the collision bit. -/
def execDrw (x y : Reg) (n : Nat) (s : State) : Result :=
  match s.memReads s.dataAddress n with
  | .error a => .next (s.raiseExec .memoryOutOfBounds (.drw x y n) (some a))
  | .ok bytes =>
    let d := Display.draw s.cfg bytes (s.reg x).toNat (s.reg y).toNat s.fb
    .next ((s.setFb d.1).setReg regF (flagByte d.2)).advance

end Sys2Proof.Machine
end

