-- ==== Sys2Proof/Machine/InputTimer.lean ====
section
/-! DEFINITION. Key skips, the key-wait, the timer instructions and the sound hook (43_input_timer.md R150 to R158). -/

namespace Sys2Proof.Machine

/-- `SKP Vx` (R150). -/
def execSkp (x : Reg) (s : State) : Result := .next (s.skipIf (s.keyPressed (s.reg x)))

/-- `SKNP Vx` (R151). -/
def execSknp (x : Reg) (s : State) : Result := .next (s.skipIf (!s.keyPressed (s.reg x)))

/-- `LD Vx, DT` (R153): the value after this step's tick. -/
def execLdVxDt (x : Reg) (s : State) : Result := .next (s.setReg x s.dt).advance

/-- `LD Vx, K` (R152): with no last key the instruction stalls, `next_pc` being `pc`; else its code is loaded. -/
def execLdVxK (x : Reg) (s : State) : Result :=
  match s.input.last with
  | none => .next (s.setPc s.pc)
  | some k => .next (s.setReg x (byteOfKey k)).advance

/-- `LD DT, Vx` (R154). -/
def execLdDtVx (x : Reg) (s : State) : Result := .next (s.setDt (s.reg x)).advance

/-- `LD ST, Vx` (R155): the no-op hook; its operand is not read. -/
def execLdStVx (_x : Reg) (s : State) : Result := .next s.advance

end Sys2Proof.Machine
end

