-- ==== Sys2Proof/Machine/Execute.lean ====
section
/-! DEFINITION. The course of one step (40_control_flow.md R100 to R103); Step.lean only names it. -/

namespace Sys2Proof.Machine

/-- Fetch, decode and execute, on a state whose snapshot is sampled and whose timer has ticked (R101, R102, R103, in the
order of 60_exceptions.md R207). -/
def executeOne (s : State) : Result :=
  match s.fetch with
  | .error a => .next (s.raise .memoryOutOfBounds none (some a))
  | .ok op =>
    match decodeWord op with
    | none => .next (s.raise .unknownOpcode (some op) none)
    | some i => exec i s

/-- `Step(IN, rnd)` (R100): a halted machine does not change (60_exceptions.md R205); else the snapshot is sampled, the timer
ticks and one instruction runs. Parameters outside 00_scope.md R7 and a snapshot outside 10_state.md R33 are refused. -/
def stepOnce (s : State) : Result :=
  if s.fault.isSome then .next s
  else if !s.cfg.wf then .refused .badConfiguration
  else if !s.sample.input.wf then .refused .inconsistentInput
  else executeOne s.sample.tick

end Sys2Proof.Machine
end

