-- ==== Sys2Proof/Machine/Probe.lean ====
section
/-! DEFINITION. One instruction put where the next step fetches it, to ask what a step makes of it. It is no part of a step and no
move of the machine's host, whose moves are those of `HostMove` (assumption 15). -/

namespace Sys2Proof.Machine

/-- One instruction word stored at `pc`, its high byte first (20_memory.md R55). -/
def State.placeWord (s : State) (op : Word) : State := s.pokes s.pc.toNat [highByte op, lowByte op]

end Sys2Proof.Machine
end

