-- ==== Sys2Proof/Machine/Step.lean ====
section
/-! DEFINITION. The step of the machine, and one instruction placed for it to fetch. -/

namespace Sys2Proof.Machine

/-- One step: `Step(IN, rnd)` (40_control_flow.md R100). -/
def step (s : State) : Host.Outcome State Fault Refusal := stepOnce s

/-- The instruction that the opcode table numbers `w`, stored at `pc` (assumption 15). -/
def State.withFetchWord (s : State) (nbits w : Nat) : State := s.placeWord (tableWord nbits w)

end Sys2Proof.Machine
end

