-- ==== Sys2Proof/Machine/HostPort.lean ====
section
/-! DEFINITION. What the host may do outside a step (20_memory.md R59, R60, 70_reset_and_hazards.md R232 to R234): construct a
machine with an image loaded, set the input, supply random bytes, read the framebuffer, and in a test bench set `DT`. -/

namespace Sys2Proof.Machine

/-- `Load(image)` (70_reset_and_hazards.md R233): a machine right after its construction with the bytes of the image from
`ORIGIN` up; an image that is too long is refused whole. It takes no state, so there is no load after a step and no second load
(R232, assumption 14). -/
def State.load (c : Config) (image : List Byte) : Result :=
  if memSize - origin < image.length then .refused .imageTooLong else .next ((State.resetWith c).pokes origin image)

/-- `input_set(snapshot)` (20_memory.md R59): a snapshot that breaks the host's duties is refused (10_state.md R33). -/
def State.setInput (s : State) (n : Input) : Result :=
  if n.wf then .next { s with input := n } else .refused .inconsistentInput

/-- The snapshots the host will set before each of the coming steps, given in advance (assumption 2). -/
def State.supplyInputs (s : State) (ns : List Input) : State := { s with pending := s.pending ++ ns }

/-- A substituted fixed-sequence random source supplies these bytes next (10_state.md R34). -/
def State.supplyRandom (s : State) (bytes : List Byte) : State := { s with random := s.random ++ bytes }

/-- `timer_set(v)` by a test bench (20_memory.md R59, R60). -/
def State.benchSetTimer (s : State) (v : Byte) : State := s.setDt v

/-- `display_buffer()` (10_state.md R31): the flat pixel grid, row-major. -/
def State.flat (s : State) : List Bool := s.fb.flatten

end Sys2Proof.Machine
end

