-- ==== Sys2Proof/Machine/Session.lean ====
section
/-! DEFINITION. A session of the host with one machine (70_reset_and_hazards.md R234): construct it with its image loaded, then any
number of moves, each between steps (20_memory.md R60). Reading the framebuffer or the fault record changes nothing, so it is no
move. -/

namespace Sys2Proof.Machine

/-- Every move the host has once the machine is constructed and loaded (20_memory.md R60, 92_eei_decisions.md D28). None loads,
and none writes a register, `I`, `pc`, the stack, memory or the display (70_reset_and_hazards.md R232). -/
inductive HostMove where
  /-- `input_set(snapshot)`. -/
  | setInput (n : Input)
  /-- The random-byte provider is given bytes to supply. -/
  | supplyRandom (bytes : List Byte)
  /-- `timer_set(v)`, by a test bench. -/
  | benchSetTimer (v : Byte)
  /-- `Step`. -/
  | step
  deriving DecidableEq, Repr

/-- What a move of the host does. -/
def State.hostMove (s : State) (m : HostMove) : Result :=
  match m with
  | .setInput n => s.setInput n
  | .supplyRandom bytes => .next (s.supplyRandom bytes)
  | .benchSetTimer v => .next (s.benchSetTimer v)
  | .step => step s

/-- The moves of a list in order, up to the first that answers no next state. -/
def State.hostMoves (s : State) (ms : List HostMove) : Result :=
  match ms with
  | [] => .next s
  | m :: rest =>
    match s.hostMove m with
    | .next t => t.hostMoves rest
    | .fault f => .fault f
    | .refused r => .refused r

/-- A whole session: reset and load, then the moves. -/
def State.session (c : Config) (image : List Byte) (ms : List HostMove) : Result :=
  match State.load c image with
  | .next s => s.hostMoves ms
  | .fault f => .fault f
  | .refused r => .refused r

end Sys2Proof.Machine
end

