-- ==== Sys2Proof/Safety.lean ====
section
/-! DEFINITION. The terms in which claims speak: what a step leaves unchanged, what counts as a safe run, the conventional end
of a run, and the invariants of the machine. -/

namespace Sys2Proof.Machine

/-! ## Frames -/

/-- The parts of the state, other than registers, memory and `pc`, that a frame can let change. -/
inductive Part where
  | addressReg
  | stack
  | display
  | timer
  | fault
  | random
  deriving DecidableEq, Repr

/-- Every register outside the list keeps its value. -/
def RegsKept (regs : List Reg) (s t : State) : Prop := ∀ r, r ∉ regs → t.reg r = s.reg r

/-- Every byte outside the `n` bytes from `lo` up keeps its value; with `n = 0`, every byte. -/
def MemKept (lo n : Nat) (s t : State) : Prop := ∀ a, a < lo ∨ lo + n ≤ a → t.byteAt a = s.byteAt a

/-- A frame: between `s` and `t` nothing changed but `pc`, the named registers, the `n` bytes of memory from `lo` up, and the
named parts. The parameters and the host's input never change. -/
def OnlyChanges (regs : List Reg) (lo n : Nat) (parts : List Part) (s t : State) : Prop :=
  RegsKept regs s t ∧ MemKept lo n s t ∧
  (.addressReg ∉ parts → t.i = s.i) ∧
  (.stack ∉ parts → t.stack = s.stack) ∧
  (.display ∉ parts → t.fb = s.fb) ∧
  (.timer ∉ parts → t.dt = s.dt) ∧
  (.fault ∉ parts → t.fault = s.fault) ∧
  (.random ∉ parts → t.random = s.random ∧ t.draws = s.draws) ∧
  t.cfg = s.cfg ∧ t.input = s.input ∧ t.pending = s.pending

/-! ## Safe runs and their end -/

/-- No fault is recorded: the machine is not halted (60_exceptions.md R205). -/
def State.Safe (s : State) : Prop := s.fault = none

/-- The conventional end of a run (70_reset_and_hazards.md R235): `pc` holds the address of a `1NNN` word whose `NNN` is that
address, and no fault is recorded. -/
def State.Terminal (s : State) : Prop :=
  s.fault = none ∧ ∃ nnn : Addr12, s.fetch = .ok (encode (.jp nnn)) ∧ addrOfLiteral nnn = s.pc

/-! ## Sprites -/

/-- How many 1 bits of a sprite drawn at `(x0, y0)` fall on the pixel in row `r` and column `col`, each sprite pixel wrapping on
its own (42_display.md R142). On a grid at least 8 wide and as high as the sprite it is 0 or 1 (R146). -/
def Display.hits (c : Config) (bytes : List Byte) (x0 y0 r col : Nat) : Nat :=
  (List.range bytes.length ×ˢ List.range 8).countP fun p =>
    (bytes.getD p.1 0#8).getLsbD (7 - p.2) && (y0 + p.1) % c.displayH == r && (x0 + p.2) % c.displayW == col

/-- The bytes of the sprite `DRW` reads: `n` of them from `I` up (42_display.md R143). -/
def State.spriteBytes (s : State) (n : Nat) : List Byte := (List.range n).map fun k => s.byteAt (s.i.toNat + k)

/-! ## Stores -/

/-- The byte at an address once the bytes of a list are stored from `I` up (44_address_memory.md R163, R165). -/
def State.byteAfterStore (s : State) (bytes : List Byte) (a : Nat) : Byte :=
  if s.i.toNat ≤ a ∧ a < s.i.toNat + bytes.length then bytes.getD (a - s.i.toNat) 0#8 else s.byteAt a

/-! ## Invariants -/

/-- The stack holds at most `STACK_DEPTH` entries (10_state.md R26, R27). -/
def State.StackBounded (s : State) : Prop := ∀ d, s.cfg.stackDepth = some d → s.stack.length ≤ d

/-- No instruction puts more than 0x10FE into `pc` (10_state.md R25), and no return address exceeds 0x1000. -/
def State.PcBounded (s : State) : Prop := s.pc.toNat ≤ 0x10FE ∧ ∀ a ∈ s.stack, a.toNat ≤ 0x1000

/-- How many consecutive bytes of memory, from `I` up, the instruction reads or writes as data (20_memory.md R57). -/
def dataLength : Instr → Nat
  | .drw _ _ n => n
  | .ldB _ => 3
  | .storeRegs x | .loadRegs x => x.toNat + 1
  | .cls | .ret | .jp _ | .call _ | .ldI _ | .jpV0 _ => 0
  | .seImm _ _ | .sneImm _ _ | .ldImm _ _ | .addImm _ _ | .rnd _ _ => 0
  | .seReg _ _ | .sneReg _ _ | .ldReg _ _ | .orReg _ _ | .andReg _ _ | .xorReg _ _ => 0
  | .addReg _ _ | .subReg _ _ | .shr _ _ | .subnReg _ _ | .shl _ _ => 0
  | .skp _ | .sknp _ | .ldVxDt _ | .ldVxK _ | .ldDtVx _ | .ldStVx _ | .addI _ | .ldF _ => 0

/-- The fields a record of each kind has (60_exceptions.md R200, R203). That a recorded address is at most 0xFFFF is read from
20_memory.md R67 (assumption 18). -/
def FaultRecord.WellFormed (f : FaultRecord) : Prop :=
  match f.kind with
  | .unknownOpcode => f.address = none ∧ ∃ op, f.opcode = some op ∧ decodeWord op = none
  | .memoryOutOfBounds =>
    (∃ a, f.address = some a ∧ memSize ≤ a ∧ a ≤ 0xFFFF) ∧
    (f.opcode = none ∨ ∃ i, f.opcode = some (encode i) ∧ dataLength i ≠ 0)
  | .stackUnderflow => f.address = none ∧ f.opcode = some 0x00EE#16
  | .stackOverflow => f.address = none ∧ ∃ nnn, f.opcode = some (encode (.call nnn))

/-- A recorded fault names the `pc` at which the machine stands halted (R204) and has its kind's fields. -/
def State.FaultRecorded (s : State) : Prop := ∀ f, s.fault = some f → f.atPc = s.pc ∧ f.WellFormed

/-- What every step keeps: legal parameters, memory in canonical form, a grid of the right shape, a bounded stack, a bounded
`pc`, and a fault record that is a record of the spec. -/
def State.Inv (s : State) : Prop :=
  s.cfg.wf = true ∧ Memory.wf s.cfg s.mem ∧ Display.wf s.cfg s.fb = true ∧
  s.StackBounded ∧ s.PcBounded ∧ s.FaultRecorded

end Sys2Proof.Machine
end

