-- ==== Sys2Proof/Certificates/Slice0/Obligations.lean ====
section
/-! DEFINITION. The statements about the machine, from the numbered rules of spec/. A frame is said by OnlyChanges: nothing but
`pc` and what it names has changed. A clause that rests on a choice the spec marks as its own (a decision D of
92_eei_decisions.md, or a rule marked derived) is named in its docstring. -/

open Sys2Proof Sys2Proof.Machine

/-! ## Encoding (30_encoding.md) -/

/-- Every well-formed instruction, with every operand, is what its own word and its own two bytes decode to. From R93, which the
spec derives from R85 and R88. -/
def Obligations.DecodeOfEncode : Prop :=
  ∀ (i : Instr) (rest : List Byte), i.wellFormed = true →
    decodeWord (encode i) = some i ∧ decodeBytes (encodeBytes i ++ rest) = .instr i rest

/-- The decoder drops no bit of a legal word: encoding what it gives is the word again. From R93, which the spec derives from R85
and R88. -/
def Obligations.EncodeOfDecode : Prop :=
  ∀ (op : Word) (i : Instr), decodeWord op = some i → encode i = op ∧ i.wellFormed = true

/-- R86: which words are legal, group by group; a legal word selects one row of the map, with the field values of the word. -/
def Obligations.DecodeLegalWordsExactly : Prop :=
  ∀ op : Word,
    ((decodeWord op).isSome = true ↔
      fieldG op ∈ [0x1#4, 0x2#4, 0x3#4, 0x4#4, 0x6#4, 0x7#4, 0xA#4, 0xB#4, 0xC#4, 0xD#4] ∨
      (op = 0x00E0#16 ∨ op = 0x00EE#16) ∨
      ((fieldG op = 0x5#4 ∨ fieldG op = 0x9#4) ∧ fieldN op = 0x0#4) ∨
      (fieldG op = 0x8#4 ∧ fieldN op ∈ [0x0#4, 0x1#4, 0x2#4, 0x3#4, 0x4#4, 0x5#4, 0x6#4, 0x7#4, 0xE#4]) ∨
      (fieldG op = 0xE#4 ∧ fieldNN op ∈ [0x9E#8, 0xA1#8]) ∨
      (fieldG op = 0xF#4 ∧
        fieldNN op ∈ [0x07#8, 0x0A#8, 0x15#8, 0x18#8, 0x1E#8, 0x29#8, 0x33#8, 0x55#8, 0x65#8])) ∧
    ∀ i, decodeWord op = some i → op &&& (opcodeRow i).1 = (opcodeRow i).2 ∧ encode i = op

/-- The opcode map of R85 read as masks: a word decodes to an instruction exactly when it matches a row, and the row is that
instruction's. -/
def Obligations.DecodeSelectsMatchingRow : Prop :=
  ∀ op : Word,
    (∀ i, decodeWord op = some i → opcodeRow i ∈ opcodeMap ∧ op &&& (opcodeRow i).1 = (opcodeRow i).2) ∧
    ∀ row ∈ opcodeMap, op &&& row.1 = row.2 → ∃ i, decodeWord op = some i ∧ opcodeRow i = row

/-- "Rows never overlap" (R85): any two of the 34 rows differ in a bit that both masks fix. -/
def Obligations.OpcodeRowsNeverOverlap : Prop :=
  opcodeMap.length = 34 ∧ opcodeMap.Pairwise fun r q => r.1 &&& q.1 &&& (r.2 ^^^ q.2) ≠ 0#16

/-- The five words whose decodings R83 works out, and words of 95_test_vectors.md. -/
def Obligations.SampleWordsDecode : Prop :=
  decodeWord 0x6005#16 = some (.ldImm 0#4 0x05#8) ∧ decodeWord 0x610A#16 = some (.ldImm 1#4 0x0A#8) ∧
  decodeWord 0x8014#16 = some (.addReg 0#4 1#4) ∧ decodeWord 0x1200#16 = some (.jp 0x200#12) ∧
  decodeWord 0x2204#16 = some (.call 0x204#12) ∧ decodeWord 0x8AB6#16 = some (.shr 0xA#4 0xB#4) ∧
  decodeWord 0xD015#16 = some (.drw 0#4 1#4 5) ∧ decodeWord 0xE19E#16 = some (.skp 1#4) ∧
  decodeWord 0xF255#16 = some (.storeRegs 2#4) ∧ decodeWord 0x5121#16 = none ∧ decodeWord 0x0123#16 = none

/-! ## The step (40_control_flow.md R100 to R103) -/

/-- A machine that is not halted, at a `pc` whose two bytes decode to `i`, runs `i` on the state with the snapshot sampled and
the timer ticked (R100 to R103). That the snapshots stand in the state is the model's choice (assumption 2). -/
def Obligations.StepRunsDecodedInstruction : Prop :=
  ∀ (s : State) (i : Instr), s.fault = none → s.cfg.wf = true → s.sample.input.wf = true →
    s.pc.toNat + 1 < memSize →
    decodeWord (wordOfBytes (s.byteAt s.pc.toNat) (s.byteAt (s.pc.toNat + 1))) = some i →
    ∃ s1 : State, step s = exec i s1 ∧
      s1.dt.toNat = s.dt.toNat - 1 ∧
      (s.pending = [] → s1.input = s.input ∧ s1.pending = []) ∧
      (∀ n rest, s.pending = n :: rest → s1.input = n ∧ s1.pending = rest) ∧
      s1 = { s with dt := s1.dt, input := s1.input, pending := s1.pending }

/-- A halted machine does not change: no tick, no fetch, no commit. The spec's decisions D11 and D33 (R205). -/
def Obligations.HaltedMachineStands : Prop :=
  ∀ (s : State) (f : FaultRecord), s.fault = some f → step s = .next s

/-- A fetch at `pc` of 0xFFF or more records `MemoryOutOfBounds`, code 2, with no opcode and the failing address; only the tick
and the record happen (R101, R204; precise faults are the spec's decision D11). -/
def Obligations.FetchOutOfBoundsFaults : Prop :=
  ∀ s : State, s.fault = none → s.cfg.wf = true → s.sample.input.wf = true → memSize ≤ s.pc.toNat + 1 →
    ∃ (t : State) (f : FaultRecord), step s = .next t ∧ t.fault = some f ∧
      f.kind = .memoryOutOfBounds ∧ f.code = 2 ∧ f.atPc = s.pc ∧ f.opcode = none ∧
      f.address = some (if memSize ≤ s.pc.toNat then s.pc.toNat else s.pc.toNat + 1) ∧
      t.pc = s.pc ∧ OnlyChanges [] 0 0 [.fault] s.sample.tick t

/-- A word outside the map records `UnknownOpcode`, code 1, with the word; only the tick and the record happen (R87, R102, R204;
the strict match is the spec's decision D13, precise faults its decision D11). -/
def Obligations.UnknownWordFaults : Prop :=
  ∀ (s : State) (op : Word), s.fault = none → s.cfg.wf = true → s.sample.input.wf = true → s.pc.toNat + 1 < memSize →
    op = wordOfBytes (s.byteAt s.pc.toNat) (s.byteAt (s.pc.toNat + 1)) → decodeWord op = none →
    ∃ (t : State) (f : FaultRecord), step s = .next t ∧ t.fault = some f ∧
      f.kind = .unknownOpcode ∧ f.code = 1 ∧ f.atPc = s.pc ∧ f.opcode = some op ∧ f.address = none ∧
      t.pc = s.pc ∧ OnlyChanges [] 0 0 [.fault] s.sample.tick t

/-- A snapshot that breaks the host's duties of R33 is refused, by the step that samples it and by the host's input operation; one
that keeps them is accepted. The spec's decision D16; that the step refuses is the model's choice (assumption 5). -/
def Obligations.BrokenSnapshotRefused : Prop :=
  (∀ n : Input, n.wf = true ↔
    (∀ k, n.last = some k → n.keys.getLsbD k.toNat = true) ∧ (n.last = none ↔ n.keys = 0#16)) ∧
  (∀ s : State, s.fault = none → s.cfg.wf = true → s.sample.input.wf = false →
    step s = .refused .inconsistentInput) ∧
  (∀ (s : State) (n : Input), n.wf = false → s.setInput n = .refused .inconsistentInput) ∧
  ∀ (s : State) (n : Input), n.wf = true →
    ∃ t : State, s.setInput n = .next t ∧ t.input = n ∧ t = { s with input := t.input }

/-- Under legal parameters and a legal snapshot every step, of a halted machine too, answers a next state: the four fatal
conditions are recorded in the state, and no instruction is refused ("All other opcodes are total functions over valid state"). -/
def Obligations.StepAlwaysAnswersNext : Prop :=
  ∀ s : State, s.cfg.wf = true → s.sample.input.wf = true → ∃ t : State, step s = .next t

/-- Faults are precise (R204, the spec's decision D11): the state after a faulting step is the state before it with the snapshot
sampled, the timer ticked and the record set, and nothing else. The record has the fields of its kind (R200, R203); that an
address in it is at most 0xFFFF is the model's deduction from R67 (assumption 18), where R203 says 0x1000E. -/
def Obligations.FaultsArePrecise : Prop :=
  ∀ (s t : State) (f : FaultRecord), step s = .next t → s.fault = none → t.fault = some f →
    t = { s.sample.tick with fault := some f } ∧ f.atPc = s.pc ∧ f.WellFormed

/-- After a successful decode exactly these raise a fault (R201): `RET` on an empty stack, `CALL` on a full one, and an
instruction one of whose data addresses is out of bounds; the other 28 instructions complete on every state. -/
def Obligations.ExecuteFaultsExactly : Prop :=
  ∀ (i : Instr) (s : State), s.fault = none →
    ∃ t : State, exec i s = .next t ∧
      (t.fault.isSome = true ↔
        (i = .ret ∧ s.stack = []) ∨
        ((∃ nnn, i = .call nnn) ∧ ∃ d, s.cfg.stackDepth = some d ∧ d ≤ s.stack.length) ∨
        (dataLength i ≠ 0 ∧ memSize < s.i.toNat + dataLength i))

/-- The timer goes down by one at every step of a machine that is not halted and stays at 0; only `LD DT, Vx` replaces the ticked
value (R156, and R157, whose clause on a faulting step is the spec's decision D11). -/
def Obligations.TimerTicksEveryStep : Prop :=
  ∀ s t : State, s.fault = none → step s = .next t →
    t.dt.toNat = s.dt.toNat - 1 ∨
    ∃ x : Reg, s.fetch = .ok (encode (.ldDtVx x)) ∧ t.dt = s.reg x

/-! ## Invariants and whole-machine rules -/

/-- Every step keeps the invariant: legal parameters, memory in the model's canonical form (assumption 7), the shape of the display
(R30), the bound of the stack (R26), `pc` at most 0x10FE (R25), and a fault record with the fields of its kind (R200, R203), whose
address is at most 0xFFFF: the model's deduction from R67 (assumption 18), where R203 says 0x1000E. -/
def Obligations.StepKeepsInvariant : Prop :=
  ∀ s t : State, s.Inv → step s = .next t → t.Inv

/-- A machine right after reset meets the invariant of StepKeepsInvariant, its clauses from the assumptions 7 and 18 included,
whatever its legal parameters. -/
def Obligations.ResetMeetsInvariant : Prop :=
  State.reset.Inv ∧ ∀ c : Config, c.wf = true → (State.resetWith c).Inv

/-- No step changes the parameters (R6), and no instruction writes the input: the program cannot write the Input State (R212),
which is sampled once, at the start of the step (R32). That the parameters and the snapshots are fields of the state is the model's
choice (assumptions 1 and 2). -/
def Obligations.StepKeepsParametersAndInput : Prop :=
  ∀ s t : State, step s = .next t → t.cfg = s.cfg ∧
    (s.fault = none → t.input = s.sample.input ∧ t.pending = s.sample.pending)

/-- Who writes `VF` (R39): the six flag writers, and an instruction whose named destination it is. That logic instructions and
`ADD I, Vx` leave it is the spec's decisions D8 and D9. -/
def Obligations.FlagRegisterWriters : Prop :=
  ∀ (i : Instr) (s t : State), exec i s = .next t → t.reg 0xF#4 ≠ s.reg 0xF#4 →
    (∃ x y, i = .addReg x y ∨ i = .subReg x y ∨ i = .shr x y ∨ i = .subnReg x y ∨ i = .shl x y) ∨
    (∃ x y n, i = .drw x y n) ∨
    (∃ nn, i = .ldImm 0xF#4 nn ∨ i = .addImm 0xF#4 nn ∨ i = .rnd 0xF#4 nn) ∨
    (∃ y, i = .ldReg 0xF#4 y ∨ i = .orReg 0xF#4 y ∨ i = .andReg 0xF#4 y ∨ i = .xorReg 0xF#4 y) ∨
    i = .ldVxDt 0xF#4 ∨ i = .ldVxK 0xF#4 ∨ i = .loadRegs 0xF#4

/-- R24: an instruction that completes advances `pc` by 2, but for the complete list: the jumps, call and return; a skip, which may
advance it by 4; and the key-wait while no key is available, which leaves it. -/
def Obligations.ProgramCounterAdvance : Prop :=
  ∀ (i : Instr) (s t : State), s.fault = none → exec i s = .next t → t.fault = none →
    t.pc = s.pc + 2#16 ∨
    (i = .ret ∨ ∃ nnn, i = .jp nnn ∨ i = .call nnn ∨ i = .jpV0 nnn) ∨
    (t.pc = s.pc + 4#16 ∧
      ((∃ x nn, i = .seImm x nn ∨ i = .sneImm x nn) ∨ (∃ x y, i = .seReg x y ∨ i = .sneReg x y) ∨
        ∃ x, i = .skp x ∨ i = .sknp x)) ∨
    (t.pc = s.pc ∧ s.input.last = none ∧ ∃ x, i = .ldVxK x)

/-- Which instructions write which part of the state: the stack (R26), the display (R30), memory (R57), `I` (R22), `DT` (R35) and
the random port (R34). -/
def Obligations.WritersOfEachPart : Prop :=
  ∀ (i : Instr) (s t : State), exec i s = .next t →
    (t.stack ≠ s.stack → i = .ret ∨ ∃ nnn, i = .call nnn) ∧
    (t.fb ≠ s.fb → i = .cls ∨ ∃ x y n, i = .drw x y n) ∧
    (t.mem ≠ s.mem → ∃ x, i = .ldB x ∨ i = .storeRegs x) ∧
    (t.i ≠ s.i → (∃ nnn, i = .ldI nnn) ∨ ∃ x, i = .addI x ∨ i = .ldF x ∨ i = .storeRegs x ∨ i = .loadRegs x) ∧
    (t.dt ≠ s.dt → ∃ x, i = .ldDtVx x) ∧
    (t.random ≠ s.random ∨ t.draws ≠ s.draws → ∃ x nn, i = .rnd x nn)

/-! ## Arithmetic and logic (41_alu.md) -/

/-- `LD Vx, NN` (R120). -/
def Obligations.LoadImmediateResult : Prop :=
  ∀ (x : Reg) (nn : Byte) (s : State), ∃ t : State, exec (.ldImm x nn) s = .next t ∧
    t.reg x = nn ∧ t.pc = s.pc + 2#16 ∧ OnlyChanges [x] 0 0 [] s t

/-- `ADD Vx, NN` (R121): modulo 256; `VF`, when it is not the destination, keeps its value. -/
def Obligations.AddImmediateResult : Prop :=
  ∀ (x : Reg) (nn : Byte) (s : State), ∃ t : State, exec (.addImm x nn) s = .next t ∧
    (t.reg x).toNat = ((s.reg x).toNat + nn.toNat) % 256 ∧ t.pc = s.pc + 2#16 ∧ OnlyChanges [x] 0 0 [] s t

/-- `LD Vx, Vy` (R122). That a move leaves `VF` is the spec's decision D8. -/
def Obligations.MoveRegisterResult : Prop :=
  ∀ (x y : Reg) (s : State), ∃ t : State, exec (.ldReg x y) s = .next t ∧
    t.reg x = s.reg y ∧ t.pc = s.pc + 2#16 ∧ OnlyChanges [x] 0 0 [] s t

/-- `OR`, `AND`, `XOR` (R123, R124, R125), bit by bit. That they leave `VF` is the spec's decision D8. -/
def Obligations.LogicResults : Prop :=
  ∀ (x y : Reg) (s : State),
    (∃ t : State, exec (.orReg x y) s = .next t ∧
      (∀ k, (t.reg x).getLsbD k = ((s.reg x).getLsbD k || (s.reg y).getLsbD k)) ∧
      t.pc = s.pc + 2#16 ∧ OnlyChanges [x] 0 0 [] s t) ∧
    (∃ t : State, exec (.andReg x y) s = .next t ∧
      (∀ k, (t.reg x).getLsbD k = ((s.reg x).getLsbD k && (s.reg y).getLsbD k)) ∧
      t.pc = s.pc + 2#16 ∧ OnlyChanges [x] 0 0 [] s t) ∧
    (∃ t : State, exec (.xorReg x y) s = .next t ∧
      (∀ k, (t.reg x).getLsbD k = ((s.reg x).getLsbD k ^^ (s.reg y).getLsbD k)) ∧
      t.pc = s.pc + 2#16 ∧ OnlyChanges [x] 0 0 [] s t)

/-- `ADD Vx, Vy` (R127): the sum modulo 256, and `VF` always written, last: with `X = 0xF` it holds the flag and the sum is lost.
The order of the two writes is the spec's decision D7. -/
def Obligations.AddWithCarryResult : Prop :=
  ∀ (x y : Reg) (s : State), ∃ t : State, exec (.addReg x y) s = .next t ∧
    (x ≠ 0xF#4 → (t.reg x).toNat = ((s.reg x).toNat + (s.reg y).toNat) % 256) ∧
    t.reg 0xF#4 = (if (s.reg x).toNat + (s.reg y).toNat > 255 then 0x01#8 else 0x00#8) ∧
    t.pc = s.pc + 2#16 ∧ OnlyChanges [x, 0xF#4] 0 0 [] s t

/-- `SUB Vx, Vy` (R128) and `SUBN Vx, Vy` (R130): the wrapped difference, and `VF` 1 if there is no borrow, written last.
The order of the two writes is the spec's decision D7. -/
def Obligations.SubtractResults : Prop :=
  ∀ (x y : Reg) (s : State),
    (∃ t : State, exec (.subReg x y) s = .next t ∧
      (x ≠ 0xF#4 → ((t.reg x).toNat : Int) = (((s.reg x).toNat : Int) - (s.reg y).toNat) % 256) ∧
      t.reg 0xF#4 = (if (s.reg x).toNat ≥ (s.reg y).toNat then 0x01#8 else 0x00#8) ∧
      t.pc = s.pc + 2#16 ∧ OnlyChanges [x, 0xF#4] 0 0 [] s t) ∧
    (∃ t : State, exec (.subnReg x y) s = .next t ∧
      (x ≠ 0xF#4 → ((t.reg x).toNat : Int) = (((s.reg y).toNat : Int) - (s.reg x).toNat) % 256) ∧
      t.reg 0xF#4 = (if (s.reg y).toNat ≥ (s.reg x).toNat then 0x01#8 else 0x00#8) ∧
      t.pc = s.pc + 2#16 ∧ OnlyChanges [x, 0xF#4] 0 0 [] s t)

/-- `SHR` and `SHL` (R129, R131): by one bit, `VF` the bit shifted out, written last (the spec's decision D7). Which register is shifted is the parameter
SHIFT_SRC of the spec's decision D6; both settings are stated. -/
def Obligations.ShiftResults : Prop :=
  ∀ (x y : Reg) (s : State) (v : Byte),
    v = (if s.cfg.shiftSrc = .x then s.reg x else s.reg y) →
    (∃ t : State, exec (.shr x y) s = .next t ∧
      (x ≠ 0xF#4 → (t.reg x).toNat = v.toNat / 2) ∧ (t.reg 0xF#4).toNat = v.toNat % 2 ∧
      t.pc = s.pc + 2#16 ∧ OnlyChanges [x, 0xF#4] 0 0 [] s t) ∧
    (∃ t : State, exec (.shl x y) s = .next t ∧
      (x ≠ 0xF#4 → (t.reg x).toNat = v.toNat * 2 % 256) ∧ (t.reg 0xF#4).toNat = v.toNat / 128 ∧
      t.pc = s.pc + 2#16 ∧ OnlyChanges [x, 0xF#4] 0 0 [] s t)

/-- `RND Vx, NN` (R132): the byte of the port, any byte, under the mask; one byte is consumed, the spec's decision D19. The supplied
bytes and the count of draws are the model's own state (assumption 3). -/
def Obligations.RandomResult : Prop :=
  ∀ (x : Reg) (nn : Byte) (s : State), ∃ t : State, exec (.rnd x nn) s = .next t ∧
    t.reg x = s.randomByte &&& nn ∧
    (∀ b rest, s.random = b :: rest → t.reg x = b &&& nn ∧ t.random = rest) ∧
    (∀ k, nn.getLsbD k = false → (t.reg x).getLsbD k = false) ∧
    (s.random = [] → t.random = []) ∧
    (nn = 0x00#8 → t.reg x = 0x00#8) ∧ (nn = 0xFF#8 → t.reg x = s.randomByte) ∧
    t.draws = s.draws + 1 ∧ t.pc = s.pc + 2#16 ∧ OnlyChanges [x] 0 0 [.random] s t

/-! ## Control flow (40_control_flow.md) -/

/-- `JP NNN` (R105). -/
def Obligations.JumpResult : Prop :=
  ∀ (nnn : Addr12) (s : State), ∃ t : State, exec (.jp nnn) s = .next t ∧
    t.pc.toNat = nnn.toNat ∧ OnlyChanges [] 0 0 [] s t

/-- `CALL NNN` (R106): with room on the stack the address after the call is pushed; on a full stack `StackOverflow`, code 4, is
recorded and nothing else happens. The bound and its fault are the spec's decision D2. -/
def Obligations.CallResult : Prop :=
  ∀ (nnn : Addr12) (s : State),
    ((∀ d, s.cfg.stackDepth = some d → s.stack.length < d) →
      ∃ t : State, exec (.call nnn) s = .next t ∧ t.stack = s.stack ++ [s.pc + 2#16] ∧
        t.pc.toNat = nnn.toNat ∧ OnlyChanges [] 0 0 [.stack] s t) ∧
    (∀ d, s.cfg.stackDepth = some d → d ≤ s.stack.length →
      ∃ (t : State) (f : FaultRecord), exec (.call nnn) s = .next t ∧ t.fault = some f ∧
        f.kind = .stackOverflow ∧ f.code = 4 ∧ f.atPc = s.pc ∧ f.opcode = some (encode (.call nnn)) ∧
        f.address = none ∧ t.pc = s.pc ∧ OnlyChanges [] 0 0 [.fault] s t)

/-- `RET` (R104): `pc` takes the popped value as it is, the spec's decision D32; on an empty stack `StackUnderflow`, code 3, is
recorded and nothing else happens, its decisions D11 and D12. -/
def Obligations.ReturnResult : Prop :=
  ∀ s : State,
    (∀ below v, s.stack = below ++ [v] →
      ∃ t : State, exec .ret s = .next t ∧ t.stack = below ∧ t.pc = v ∧ OnlyChanges [] 0 0 [.stack] s t) ∧
    (s.stack = [] →
      ∃ (t : State) (f : FaultRecord), exec .ret s = .next t ∧ t.fault = some f ∧
        f.kind = .stackUnderflow ∧ f.code = 3 ∧ f.atPc = s.pc ∧ f.opcode = some 0x00EE#16 ∧
        f.address = none ∧ t.pc = s.pc ∧ OnlyChanges [] 0 0 [.fault] s t)

/-- `JP V0, NNN` (R108): the sum, which never wraps. That the register is always `V0` is the spec's decision D20. -/
def Obligations.IndexedJumpResult : Prop :=
  ∀ (nnn : Addr12) (s : State), ∃ t : State, exec (.jpV0 nnn) s = .next t ∧
    t.pc.toNat = nnn.toNat + (s.reg 0x0#4).toNat ∧ OnlyChanges [] 0 0 [] s t

/-- `SE Vx, NN` (R107) and `SNE Vx, NN` (R109). -/
def Obligations.ImmediateSkipResults : Prop :=
  ∀ (x : Reg) (nn : Byte) (s : State),
    (∃ t : State, exec (.seImm x nn) s = .next t ∧
      t.pc = (if s.reg x = nn then s.pc + 4#16 else s.pc + 2#16) ∧ OnlyChanges [] 0 0 [] s t) ∧
    (∃ t : State, exec (.sneImm x nn) s = .next t ∧
      t.pc = (if s.reg x = nn then s.pc + 2#16 else s.pc + 4#16) ∧ OnlyChanges [] 0 0 [] s t)

/-- `SE Vx, Vy` (R110) and `SNE Vx, Vy` (R111). -/
def Obligations.RegisterSkipResults : Prop :=
  ∀ (x y : Reg) (s : State),
    (∃ t : State, exec (.seReg x y) s = .next t ∧
      t.pc = (if s.reg x = s.reg y then s.pc + 4#16 else s.pc + 2#16) ∧ OnlyChanges [] 0 0 [] s t) ∧
    (∃ t : State, exec (.sneReg x y) s = .next t ∧
      t.pc = (if s.reg x = s.reg y then s.pc + 2#16 else s.pc + 4#16) ∧ OnlyChanges [] 0 0 [] s t)

/-! ## Keys and timer (43_input_timer.md) -/

/-- `SKP Vx` (R150) and `SKNP Vx` (R151). That they exist is the spec's decision D17; that a value above 0xF is not pressed, its
decision D14 (R158). -/
def Obligations.KeySkipResults : Prop :=
  ∀ (x : Reg) (s : State) (pressed : Bool),
    pressed = (decide ((s.reg x).toNat ≤ 15) && s.input.keys.getLsbD (s.reg x).toNat) →
    (∃ t : State, exec (.skp x) s = .next t ∧
      t.pc = (if pressed = true then s.pc + 4#16 else s.pc + 2#16) ∧ OnlyChanges [] 0 0 [] s t) ∧
    (∃ t : State, exec (.sknp x) s = .next t ∧
      t.pc = (if pressed = true then s.pc + 2#16 else s.pc + 4#16) ∧ OnlyChanges [] 0 0 [] s t)

/-- `LD Vx, K` (R152): with no last key nothing changes, `pc` included; else the code of the last key is loaded. Which key is
reported is the host's, by the spec's decision D16. -/
def Obligations.KeyWaitResult : Prop :=
  ∀ (x : Reg) (s : State),
    (s.input.last = none → exec (.ldVxK x) s = .next s) ∧
    (∀ k : Key, s.input.last = some k → ∃ t : State, exec (.ldVxK x) s = .next t ∧
      (t.reg x).toNat = k.toNat ∧ t.pc = s.pc + 2#16 ∧ OnlyChanges [x] 0 0 [] s t)

/-- `LD Vx, DT` (R153) and `LD DT, Vx` (R154). -/
def Obligations.TimerInstructionResults : Prop :=
  ∀ (x : Reg) (s : State),
    (∃ t : State, exec (.ldVxDt x) s = .next t ∧
      t.reg x = s.dt ∧ t.pc = s.pc + 2#16 ∧ OnlyChanges [x] 0 0 [] s t) ∧
    (∃ t : State, exec (.ldDtVx x) s = .next t ∧
      t.dt = s.reg x ∧ t.pc = s.pc + 2#16 ∧ OnlyChanges [] 0 0 [.timer] s t)

/-- `LD ST, Vx` (R155) only advances `pc`. That the word is legal is the spec's decision D18. -/
def Obligations.SoundHookResult : Prop :=
  ∀ (x : Reg) (s : State), ∃ t : State, exec (.ldStVx x) s = .next t ∧
    t.pc = s.pc + 2#16 ∧ OnlyChanges [] 0 0 [] s t

/-! ## Display (42_display.md) -/

/-- `CLS` (R140): every pixel of the grid is off, and the grid keeps its shape. -/
def Obligations.ClearDisplayResult : Prop :=
  ∀ s : State, ∃ t : State, exec .cls s = .next t ∧
    Display.wf t.cfg t.fb = true ∧ (∀ r c, t.pixel r c = false) ∧
    t.pc = s.pc + 2#16 ∧ OnlyChanges [] 0 0 [.display] s t

/-- `DRW Vx, Vy, N` on every legal grid, the narrow ones of R146 too: a pixel is flipped by each sprite bit that falls on it, and
`VF` is 1 exactly when some bit met a lit pixel: one lit before, or one that an earlier bit of this draw lit. `I` stays (the
spec's decision D30); the integer sums of the coordinates are its decision D26. -/
def Obligations.DrawSpriteResult : Prop :=
  ∀ (x y : Reg) (n : Nat) (s : State) (hits : Nat → Nat → Nat), s.cfg.wf = true → Display.wf s.cfg s.fb = true →
    n ≤ 15 → (n = 0 ∨ s.i.toNat + n ≤ memSize) →
    hits = Display.hits s.cfg (s.spriteBytes n) (s.reg x).toNat (s.reg y).toNat →
    ∃ t : State, exec (.drw x y n) s = .next t ∧
      (∀ r c, r < s.cfg.displayH → c < s.cfg.displayW →
        t.pixel r c = (s.pixel r c ^^ decide (hits r c % 2 = 1))) ∧
      (t.reg 0xF#4 = 0x00#8 ∨ t.reg 0xF#4 = 0x01#8) ∧
      (t.reg 0xF#4 = 0x01#8 ↔ ∃ r c, r < s.cfg.displayH ∧ c < s.cfg.displayW ∧
        ((s.pixel r c = true ∧ 1 ≤ hits r c) ∨ 2 ≤ hits r c)) ∧
      Display.wf t.cfg t.fb = true ∧ t.pc = s.pc + 2#16 ∧ OnlyChanges [0xF#4] 0 0 [.display] s t

/-- Drawing the same sprite at the same place twice restores a grid at least 8 wide and as high as the sprite; the first draw
collides exactly when a pixel under a sprite bit was on, the second exactly when one was off (R146, which the spec derives from
R142 against the document's wording, 90_conflicts.md C3). -/
def Obligations.DrawTwiceRestoresDisplay : Prop :=
  ∀ (c : Config) (bytes : List Byte) (x0 y0 : Nat) (fb : List (List Bool)),
    Display.wf c fb = true → 8 ≤ c.displayW → bytes.length ≤ c.displayH → 1 ≤ c.displayH →
    ∃ (mid : List (List Bool)) (hit again : Bool),
      Display.draw c bytes x0 y0 fb = (mid, hit) ∧ Display.draw c bytes x0 y0 mid = (fb, again) ∧
      (hit = true ↔ ∃ r col, r < c.displayH ∧ col < c.displayW ∧
        Display.hits c bytes x0 y0 r col = 1 ∧ Display.pixel fb r col = true) ∧
      (again = true ↔ ∃ r col, r < c.displayH ∧ col < c.displayW ∧
        Display.hits c bytes x0 y0 r col = 1 ∧ Display.pixel fb r col = false)

/-- A draw depends on its coordinates only modulo the grid: coordinates equal to the width and height draw at column and row 0
(R144, which the spec derives from R142). -/
def Obligations.DrawWrapsCoordinates : Prop :=
  ∀ (c : Config) (bytes : List Byte) (x0 y0 : Nat) (fb : List (List Bool)),
    Display.draw c bytes x0 y0 fb = Display.draw c bytes (x0 % c.displayW) (y0 % c.displayH) fb ∧
    Display.draw c bytes c.displayW c.displayH fb = Display.draw c bytes 0 0 fb

/-! ## Address register and memory (44_address_memory.md, 20_memory.md) -/

/-- `LD I, NNN` (R160). -/
def Obligations.LoadAddressResult : Prop :=
  ∀ (nnn : Addr12) (s : State), ∃ t : State, exec (.ldI nnn) s = .next t ∧
    t.i.toNat = nnn.toNat ∧ t.pc = s.pc + 2#16 ∧ OnlyChanges [] 0 0 [.addressReg] s t

/-- `ADD I, Vx` (R161): modulo 65536, `VF` unchanged: the spec's decision D9. -/
def Obligations.AddAddressResult : Prop :=
  ∀ (x : Reg) (s : State), ∃ t : State, exec (.addI x) s = .next t ∧
    t.i.toNat = (s.i.toNat + (s.reg x).toNat) % 65536 ∧ t.pc = s.pc + 2#16 ∧ OnlyChanges [] 0 0 [.addressReg] s t

/-- `LD F, Vx` (R162): the formula on the whole 8-bit value, the spec's decision D15. -/
def Obligations.GlyphAddressResult : Prop :=
  ∀ (x : Reg) (s : State), ∃ t : State, exec (.ldF x) s = .next t ∧
    t.i.toNat = (s.cfg.fontBase + s.cfg.glyphBytes * (s.reg x).toNat) % 65536 ∧
    t.pc = s.pc + 2#16 ∧ OnlyChanges [] 0 0 [.addressReg] s t

/-- `LD B, Vx` (R163): the hundreds, tens and ones at `I`, `I + 1`, `I + 2`, and no other byte. `I` stays: the spec's decision
D30. -/
def Obligations.DecimalStoreResult : Prop :=
  ∀ (x : Reg) (s : State), s.i.toNat + 2 < memSize → ∃ t : State, exec (.ldB x) s = .next t ∧
    (t.byteAt s.i.toNat).toNat = (s.reg x).toNat / 100 ∧
    (t.byteAt (s.i.toNat + 1)).toNat = (s.reg x).toNat / 10 % 10 ∧
    (t.byteAt (s.i.toNat + 2)).toNat = (s.reg x).toNat % 10 ∧
    t.pc = s.pc + 2#16 ∧ OnlyChanges [] s.i.toNat 3 [] s t

/-- `LD [I], Vx` (R165): register `k` to `I + k` for `k` up to `X`, no other byte, and `I` advanced by `X + 1`. -/
def Obligations.BlockStoreResult : Prop :=
  ∀ (x : Reg) (s : State), s.i.toNat + x.toNat < memSize → ∃ t : State, exec (.storeRegs x) s = .next t ∧
    (∀ k : Reg, k.toNat ≤ x.toNat → t.byteAt (s.i.toNat + k.toNat) = s.reg k) ∧
    t.i.toNat = s.i.toNat + x.toNat + 1 ∧ t.pc = s.pc + 2#16 ∧
    OnlyChanges [] s.i.toNat (x.toNat + 1) [.addressReg] s t

/-- `LD Vx, [I]` (R166): register `k` from `I + k` for `k` up to `X`, no other register, and `I` advanced by `X + 1`. -/
def Obligations.BlockLoadResult : Prop :=
  ∀ (x : Reg) (s : State), s.i.toNat + x.toNat < memSize → ∃ t : State, exec (.loadRegs x) s = .next t ∧
    (∀ k : Reg, k.toNat ≤ x.toNat → t.reg k = s.byteAt (s.i.toNat + k.toNat)) ∧
    t.i.toNat = s.i.toNat + x.toNat + 1 ∧ t.pc = s.pc + 2#16 ∧
    OnlyChanges ((List.range (x.toNat + 1)).map (BitVec.ofNat 4)) 0 0 [.addressReg] s t

/-- An instruction one of whose data addresses is `MEM_SIZE` or more records `MemoryOutOfBounds`, code 2, with the smallest
failing address, and does nothing else: no byte, pixel or register is changed (R67, the spec's decision D11). -/
def Obligations.DataOutOfBoundsFaults : Prop :=
  ∀ (i : Instr) (s : State), dataLength i ≠ 0 → memSize < s.i.toNat + dataLength i →
    ∃ (t : State) (f : FaultRecord), exec i s = .next t ∧ t.fault = some f ∧
      f.kind = .memoryOutOfBounds ∧ f.code = 2 ∧ f.atPc = s.pc ∧ f.opcode = some (encode i) ∧
      f.address = some (max s.i.toNat memSize) ∧ t.pc = s.pc ∧ OnlyChanges [] 0 0 [.fault] s t

/-- `MemRead` and `MemWrite` (R52, R53): out of bounds at `MEM_SIZE` and above; below it a write is read back and changes no
other byte. -/
def Obligations.MemoryReadAfterWrite : Prop :=
  ∀ (s : State) (a : Nat) (v : Byte),
    (memSize ≤ a → s.memRead a = .error a ∧ s.memWrite a v = .error a) ∧
    (a < memSize → s.memRead a = .ok (s.byteAt a) ∧ ∃ t : State, s.memWrite a v = .ok t ∧
      t.memRead a = .ok v ∧ (∀ b, b ≠ a → t.memRead b = s.memRead b) ∧ t.pc = s.pc ∧ OnlyChanges [] a 1 [] s t)

/-- The document's register law (R20): for all sixteen registers a write is read back, and no other register changes. -/
def Obligations.RegistersAreIndependent : Prop :=
  ∀ (s : State) (r : Reg) (v : Byte), (s.setReg r v).reg r = v ∧ (∀ q, q ≠ r → (s.setReg r v).reg q = s.reg q) ∧
    (s.setReg r v).pc = s.pc ∧ OnlyChanges [r] 0 0 [] s (s.setReg r v)

/-- A block store followed by a block load from the same address gives every register `V0 .. Vx` the value it had when stored,
whatever the registers hold in between (R165, R166). -/
def Obligations.BlockStoreThenLoad : Prop :=
  ∀ (x : Reg) (s t r : State), s.i.toNat + x.toNat < memSize → exec (.storeRegs x) s = .next t →
    r.mem = t.mem → r.cfg = t.cfg → r.i = s.i →
    ∃ u : State, exec (.loadRegs x) r = .next u ∧ u.i = t.i ∧ ∀ k : Reg, k.toNat ≤ x.toNat → u.reg k = s.reg k

/-- A store is seen by the fetch of the very next step (R64, which the spec derives from R52, R53 and R62). After `LD B, Vx` or
`LD [I], Vx`, whose bytes are the digits of `Vx` or the registers `V0 .. Vx`, the fetch gives the word made of the stored bytes
where they cover the next instruction, in whole or in part, and of the old ones elsewhere; and that word is what the next step
decodes. -/
def Obligations.StoreSeenByNextFetch : Prop :=
  ∀ (i : Instr) (bytes : List Byte) (s : State) (op : Word),
    (∃ x : Reg,
      (i = .ldB x ∧ bytes.map BitVec.toNat =
        [(s.reg x).toNat / 100, (s.reg x).toNat / 10 % 10, (s.reg x).toNat % 10]) ∨
      (i = .storeRegs x ∧ bytes.length = x.toNat + 1 ∧ ∀ k : Reg, k.toNat ≤ x.toNat → bytes.getD k.toNat 0#8 = s.reg k)) →
    s.i.toNat + bytes.length ≤ memSize → s.pc.toNat + 3 < memSize →
    op = wordOfBytes (s.byteAfterStore bytes (s.pc.toNat + 2)) (s.byteAfterStore bytes (s.pc.toNat + 3)) →
    ∃ t : State, exec i s = .next t ∧ t.fetch = .ok op ∧
      (s.fault = none → s.cfg.wf = true → t.sample.input.wf = true →
        ∀ j, decodeWord op = some j → step t = exec j t.sample.tick)

/-- The conventional end of a run (R235): from a jump to itself every step stays there and changes neither registers, `I`, the
stack, memory nor the display. -/
def Obligations.TerminalStateStands : Prop :=
  ∀ s : State, s.Terminal → s.cfg.wf = true → s.sample.input.wf = true →
    ∃ t : State, step s = .next t ∧ t.Terminal ∧
      t.pc = s.pc ∧ t.x = s.x ∧ t.i = s.i ∧ t.stack = s.stack ∧ t.mem = s.mem ∧ t.fb = s.fb ∧ t.fault = none

/-! ## Reset and the host (10_state.md R31, R41, 70_reset_and_hazards.md R233) -/

/-- What reset leaves (R41). `pc` and the empty stack are the source's; registers, `I`, `DT`, display and input are the spec's
decision D3, memory its decisions D4 and D5, the empty fault its decision D11. -/
def Obligations.ResetValues : Prop :=
  State.reset.pc = 0x0200#16 ∧ State.reset.stack = [] ∧
  (∀ r, State.reset.reg r = 0x00#8) ∧ State.reset.i = 0x0000#16 ∧ State.reset.dt = 0x00#8 ∧
  State.reset.fb.length = 32 ∧ (∀ row ∈ State.reset.fb, row.length = 64) ∧ (∀ r c, State.reset.pixel r c = false) ∧
  State.reset.fault = none ∧ State.reset.input.keys = 0#16 ∧ State.reset.input.last = none ∧
  (∀ a, 80 ≤ a → State.reset.byteAt a = 0x00#8) ∧
  (∀ k, k < 5 → State.reset.byteAt (5 * 0xA + k) = [0xF0#8, 0x90#8, 0xF0#8, 0x90#8, 0x90#8].getD k 0#8) ∧
  ∀ a, a < 80 → State.reset.byteAt a = standardFont.getD a 0#8

/-- The host's load (R233): a machine as reset leaves it but for the bytes of the image from 0x200 up; an image longer than 3584
bytes is refused whole, the spec's decision D25. -/
def Obligations.LoadPlacesImage : Prop :=
  ∀ (c : Config) (image : List Byte),
    (image.length ≤ 3584 → ∃ t : State, State.load c image = .next t ∧
      (∀ k, k < image.length → t.byteAt (0x200 + k) = image.getD k 0#8) ∧
      t.pc = 0x0200#16 ∧ OnlyChanges [] 0x200 image.length [] (State.resetWith c) t) ∧
    (3584 < image.length → State.load c image = .refused .imageTooLong)

/-- What the host may change between steps (R60, R232; the spec's decision D28): of its moves, setting the input changes the
snapshot, giving bytes to the random provider the supply, a test bench's move `DT`; none changes a register, `I`, `pc`, the stack,
memory, the display, the parameters or the fault record, so a load comes only before the first step. The fourth move is the step.
The snapshot and the supply are fields of the state by the model's choice (assumptions 2 and 3). -/
def Obligations.HostMovesAreConfined : Prop :=
  ∀ (s t : State) (m : HostMove), s.hostMove m = .next t →
    (m = .step ∧ step s = .next t) ∨
    (∃ n : Input, m = .setInput n ∧ n.wf = true ∧ t = { s with input := n }) ∨
    (∃ bytes, m = .supplyRandom bytes ∧ t = { s with random := s.random ++ bytes }) ∨
    ∃ v, m = .benchSetTimer v ∧ t = { s with dt := v }

/-- Every state that a session reaches under legal parameters meets the invariant of StepKeepsInvariant: whatever image is loaded
and whatever the host does after that (R234). Its clauses from the assumptions 7 and 18 are the model's. -/
def Obligations.SessionsKeepInvariant : Prop :=
  ∀ (c : Config) (image : List Byte) (ms : List HostMove) (t : State), c.wf = true →
    State.session c image ms = .next t → t.Inv ∧ t.cfg = c ∧ t.pending = []

/-- The host's view of the display (R31): a vector of `DISPLAY_W * DISPLAY_H` bits, row-major. -/
def Obligations.FlatFramebuffer : Prop :=
  ∀ s : State, Display.wf s.cfg s.fb = true →
    s.flat.length = s.cfg.displayW * s.cfg.displayH ∧
    ∀ r c, r < s.cfg.displayH → c < s.cfg.displayW → s.flat.getD (r * s.cfg.displayW + c) false = s.pixel r c
end

