-- ==== Sys2Proof/Laws/State.lean ====
section
/-! SUPPORT. One lemma per field per update of the state, each true by rfl, and what an update leaves of a register, a byte
and a pixel; so that no proof unfolds a record update. -/

namespace Sys2Proof.Machine

variable (s : State)

@[simp] theorem setReg_cfg (r : Reg) (v : Byte) : (s.setReg r v).cfg = s.cfg := rfl
@[simp] theorem setReg_i (r : Reg) (v : Byte) : (s.setReg r v).i = s.i := rfl
@[simp] theorem setReg_pc (r : Reg) (v : Byte) : (s.setReg r v).pc = s.pc := rfl
@[simp] theorem setReg_stack (r : Reg) (v : Byte) : (s.setReg r v).stack = s.stack := rfl
@[simp] theorem setReg_mem (r : Reg) (v : Byte) : (s.setReg r v).mem = s.mem := rfl
@[simp] theorem setReg_fb (r : Reg) (v : Byte) : (s.setReg r v).fb = s.fb := rfl
@[simp] theorem setReg_dt (r : Reg) (v : Byte) : (s.setReg r v).dt = s.dt := rfl
@[simp] theorem setReg_fault (r : Reg) (v : Byte) : (s.setReg r v).fault = s.fault := rfl
@[simp] theorem setReg_input (r : Reg) (v : Byte) : (s.setReg r v).input = s.input := rfl
@[simp] theorem setReg_pending (r : Reg) (v : Byte) : (s.setReg r v).pending = s.pending := rfl
@[simp] theorem setReg_random (r : Reg) (v : Byte) : (s.setReg r v).random = s.random := rfl
@[simp] theorem setReg_draws (r : Reg) (v : Byte) : (s.setReg r v).draws = s.draws := rfl
@[simp] theorem setReg_byteAt (r : Reg) (v : Byte) (adr : Nat) : (s.setReg r v).byteAt adr = s.byteAt adr := rfl
@[simp] theorem setReg_pixel (r : Reg) (v : Byte) (py px : Nat) : (s.setReg r v).pixel py px = s.pixel py px := rfl

@[simp] theorem setI_cfg (v : Word) : (s.setI v).cfg = s.cfg := rfl
@[simp] theorem setI_x (v : Word) : (s.setI v).x = s.x := rfl
@[simp] theorem setI_i (v : Word) : (s.setI v).i = v := rfl
@[simp] theorem setI_pc (v : Word) : (s.setI v).pc = s.pc := rfl
@[simp] theorem setI_stack (v : Word) : (s.setI v).stack = s.stack := rfl
@[simp] theorem setI_mem (v : Word) : (s.setI v).mem = s.mem := rfl
@[simp] theorem setI_fb (v : Word) : (s.setI v).fb = s.fb := rfl
@[simp] theorem setI_dt (v : Word) : (s.setI v).dt = s.dt := rfl
@[simp] theorem setI_fault (v : Word) : (s.setI v).fault = s.fault := rfl
@[simp] theorem setI_input (v : Word) : (s.setI v).input = s.input := rfl
@[simp] theorem setI_pending (v : Word) : (s.setI v).pending = s.pending := rfl
@[simp] theorem setI_random (v : Word) : (s.setI v).random = s.random := rfl
@[simp] theorem setI_draws (v : Word) : (s.setI v).draws = s.draws := rfl
@[simp] theorem setI_reg (v : Word) (q : Reg) : (s.setI v).reg q = s.reg q := rfl
@[simp] theorem setI_byteAt (v : Word) (adr : Nat) : (s.setI v).byteAt adr = s.byteAt adr := rfl
@[simp] theorem setI_pixel (v : Word) (py px : Nat) : (s.setI v).pixel py px = s.pixel py px := rfl

@[simp] theorem setPc_cfg (v : Word) : (s.setPc v).cfg = s.cfg := rfl
@[simp] theorem setPc_x (v : Word) : (s.setPc v).x = s.x := rfl
@[simp] theorem setPc_i (v : Word) : (s.setPc v).i = s.i := rfl
@[simp] theorem setPc_pc (v : Word) : (s.setPc v).pc = v := rfl
@[simp] theorem setPc_stack (v : Word) : (s.setPc v).stack = s.stack := rfl
@[simp] theorem setPc_mem (v : Word) : (s.setPc v).mem = s.mem := rfl
@[simp] theorem setPc_fb (v : Word) : (s.setPc v).fb = s.fb := rfl
@[simp] theorem setPc_dt (v : Word) : (s.setPc v).dt = s.dt := rfl
@[simp] theorem setPc_fault (v : Word) : (s.setPc v).fault = s.fault := rfl
@[simp] theorem setPc_input (v : Word) : (s.setPc v).input = s.input := rfl
@[simp] theorem setPc_pending (v : Word) : (s.setPc v).pending = s.pending := rfl
@[simp] theorem setPc_random (v : Word) : (s.setPc v).random = s.random := rfl
@[simp] theorem setPc_draws (v : Word) : (s.setPc v).draws = s.draws := rfl
@[simp] theorem setPc_reg (v : Word) (q : Reg) : (s.setPc v).reg q = s.reg q := rfl
@[simp] theorem setPc_byteAt (v : Word) (adr : Nat) : (s.setPc v).byteAt adr = s.byteAt adr := rfl
@[simp] theorem setPc_pixel (v : Word) (py px : Nat) : (s.setPc v).pixel py px = s.pixel py px := rfl

@[simp] theorem setDt_cfg (v : Byte) : (s.setDt v).cfg = s.cfg := rfl
@[simp] theorem setDt_x (v : Byte) : (s.setDt v).x = s.x := rfl
@[simp] theorem setDt_i (v : Byte) : (s.setDt v).i = s.i := rfl
@[simp] theorem setDt_pc (v : Byte) : (s.setDt v).pc = s.pc := rfl
@[simp] theorem setDt_stack (v : Byte) : (s.setDt v).stack = s.stack := rfl
@[simp] theorem setDt_mem (v : Byte) : (s.setDt v).mem = s.mem := rfl
@[simp] theorem setDt_fb (v : Byte) : (s.setDt v).fb = s.fb := rfl
@[simp] theorem setDt_dt (v : Byte) : (s.setDt v).dt = v := rfl
@[simp] theorem setDt_fault (v : Byte) : (s.setDt v).fault = s.fault := rfl
@[simp] theorem setDt_input (v : Byte) : (s.setDt v).input = s.input := rfl
@[simp] theorem setDt_pending (v : Byte) : (s.setDt v).pending = s.pending := rfl
@[simp] theorem setDt_random (v : Byte) : (s.setDt v).random = s.random := rfl
@[simp] theorem setDt_draws (v : Byte) : (s.setDt v).draws = s.draws := rfl
@[simp] theorem setDt_reg (v : Byte) (q : Reg) : (s.setDt v).reg q = s.reg q := rfl
@[simp] theorem setDt_byteAt (v : Byte) (adr : Nat) : (s.setDt v).byteAt adr = s.byteAt adr := rfl
@[simp] theorem setDt_pixel (v : Byte) (py px : Nat) : (s.setDt v).pixel py px = s.pixel py px := rfl

@[simp] theorem setStack_cfg (v : List Word) : (s.setStack v).cfg = s.cfg := rfl
@[simp] theorem setStack_x (v : List Word) : (s.setStack v).x = s.x := rfl
@[simp] theorem setStack_i (v : List Word) : (s.setStack v).i = s.i := rfl
@[simp] theorem setStack_pc (v : List Word) : (s.setStack v).pc = s.pc := rfl
@[simp] theorem setStack_stack (v : List Word) : (s.setStack v).stack = v := rfl
@[simp] theorem setStack_mem (v : List Word) : (s.setStack v).mem = s.mem := rfl
@[simp] theorem setStack_fb (v : List Word) : (s.setStack v).fb = s.fb := rfl
@[simp] theorem setStack_dt (v : List Word) : (s.setStack v).dt = s.dt := rfl
@[simp] theorem setStack_fault (v : List Word) : (s.setStack v).fault = s.fault := rfl
@[simp] theorem setStack_input (v : List Word) : (s.setStack v).input = s.input := rfl
@[simp] theorem setStack_pending (v : List Word) : (s.setStack v).pending = s.pending := rfl
@[simp] theorem setStack_random (v : List Word) : (s.setStack v).random = s.random := rfl
@[simp] theorem setStack_draws (v : List Word) : (s.setStack v).draws = s.draws := rfl
@[simp] theorem setStack_reg (v : List Word) (q : Reg) : (s.setStack v).reg q = s.reg q := rfl
@[simp] theorem setStack_byteAt (v : List Word) (adr : Nat) : (s.setStack v).byteAt adr = s.byteAt adr := rfl
@[simp] theorem setStack_pixel (v : List Word) (py px : Nat) : (s.setStack v).pixel py px = s.pixel py px := rfl

@[simp] theorem setFb_cfg (v : List (List Bool)) : (s.setFb v).cfg = s.cfg := rfl
@[simp] theorem setFb_x (v : List (List Bool)) : (s.setFb v).x = s.x := rfl
@[simp] theorem setFb_i (v : List (List Bool)) : (s.setFb v).i = s.i := rfl
@[simp] theorem setFb_pc (v : List (List Bool)) : (s.setFb v).pc = s.pc := rfl
@[simp] theorem setFb_stack (v : List (List Bool)) : (s.setFb v).stack = s.stack := rfl
@[simp] theorem setFb_mem (v : List (List Bool)) : (s.setFb v).mem = s.mem := rfl
@[simp] theorem setFb_fb (v : List (List Bool)) : (s.setFb v).fb = v := rfl
@[simp] theorem setFb_dt (v : List (List Bool)) : (s.setFb v).dt = s.dt := rfl
@[simp] theorem setFb_fault (v : List (List Bool)) : (s.setFb v).fault = s.fault := rfl
@[simp] theorem setFb_input (v : List (List Bool)) : (s.setFb v).input = s.input := rfl
@[simp] theorem setFb_pending (v : List (List Bool)) : (s.setFb v).pending = s.pending := rfl
@[simp] theorem setFb_random (v : List (List Bool)) : (s.setFb v).random = s.random := rfl
@[simp] theorem setFb_draws (v : List (List Bool)) : (s.setFb v).draws = s.draws := rfl
@[simp] theorem setFb_reg (v : List (List Bool)) (q : Reg) : (s.setFb v).reg q = s.reg q := rfl
@[simp] theorem setFb_byteAt (v : List (List Bool)) (adr : Nat) : (s.setFb v).byteAt adr = s.byteAt adr := rfl

@[simp] theorem setRegs_cfg (v : List Byte) : (s.setRegs v).cfg = s.cfg := rfl
@[simp] theorem setRegs_i (v : List Byte) : (s.setRegs v).i = s.i := rfl
@[simp] theorem setRegs_pc (v : List Byte) : (s.setRegs v).pc = s.pc := rfl
@[simp] theorem setRegs_stack (v : List Byte) : (s.setRegs v).stack = s.stack := rfl
@[simp] theorem setRegs_mem (v : List Byte) : (s.setRegs v).mem = s.mem := rfl
@[simp] theorem setRegs_fb (v : List Byte) : (s.setRegs v).fb = s.fb := rfl
@[simp] theorem setRegs_dt (v : List Byte) : (s.setRegs v).dt = s.dt := rfl
@[simp] theorem setRegs_fault (v : List Byte) : (s.setRegs v).fault = s.fault := rfl
@[simp] theorem setRegs_input (v : List Byte) : (s.setRegs v).input = s.input := rfl
@[simp] theorem setRegs_pending (v : List Byte) : (s.setRegs v).pending = s.pending := rfl
@[simp] theorem setRegs_random (v : List Byte) : (s.setRegs v).random = s.random := rfl
@[simp] theorem setRegs_draws (v : List Byte) : (s.setRegs v).draws = s.draws := rfl
@[simp] theorem setRegs_byteAt (v : List Byte) (adr : Nat) : (s.setRegs v).byteAt adr = s.byteAt adr := rfl
@[simp] theorem setRegs_pixel (v : List Byte) (py px : Nat) : (s.setRegs v).pixel py px = s.pixel py px := rfl

@[simp] theorem poke_cfg (a : Nat) (v : Byte) : (s.poke a v).cfg = s.cfg := rfl
@[simp] theorem poke_x (a : Nat) (v : Byte) : (s.poke a v).x = s.x := rfl
@[simp] theorem poke_i (a : Nat) (v : Byte) : (s.poke a v).i = s.i := rfl
@[simp] theorem poke_pc (a : Nat) (v : Byte) : (s.poke a v).pc = s.pc := rfl
@[simp] theorem poke_stack (a : Nat) (v : Byte) : (s.poke a v).stack = s.stack := rfl
@[simp] theorem poke_mem (a : Nat) (v : Byte) : (s.poke a v).mem = Memory.write s.cfg s.mem a v := rfl
@[simp] theorem poke_fb (a : Nat) (v : Byte) : (s.poke a v).fb = s.fb := rfl
@[simp] theorem poke_dt (a : Nat) (v : Byte) : (s.poke a v).dt = s.dt := rfl
@[simp] theorem poke_fault (a : Nat) (v : Byte) : (s.poke a v).fault = s.fault := rfl
@[simp] theorem poke_input (a : Nat) (v : Byte) : (s.poke a v).input = s.input := rfl
@[simp] theorem poke_pending (a : Nat) (v : Byte) : (s.poke a v).pending = s.pending := rfl
@[simp] theorem poke_random (a : Nat) (v : Byte) : (s.poke a v).random = s.random := rfl
@[simp] theorem poke_draws (a : Nat) (v : Byte) : (s.poke a v).draws = s.draws := rfl
@[simp] theorem poke_reg (a : Nat) (v : Byte) (q : Reg) : (s.poke a v).reg q = s.reg q := rfl
@[simp] theorem poke_pixel (a : Nat) (v : Byte) (py px : Nat) : (s.poke a v).pixel py px = s.pixel py px := rfl

@[simp] theorem drawn_cfg : (s.drawn).cfg = s.cfg := rfl
@[simp] theorem drawn_x : (s.drawn).x = s.x := rfl
@[simp] theorem drawn_i : (s.drawn).i = s.i := rfl
@[simp] theorem drawn_pc : (s.drawn).pc = s.pc := rfl
@[simp] theorem drawn_stack : (s.drawn).stack = s.stack := rfl
@[simp] theorem drawn_mem : (s.drawn).mem = s.mem := rfl
@[simp] theorem drawn_fb : (s.drawn).fb = s.fb := rfl
@[simp] theorem drawn_dt : (s.drawn).dt = s.dt := rfl
@[simp] theorem drawn_fault : (s.drawn).fault = s.fault := rfl
@[simp] theorem drawn_input : (s.drawn).input = s.input := rfl
@[simp] theorem drawn_pending : (s.drawn).pending = s.pending := rfl
@[simp] theorem drawn_random : (s.drawn).random = s.random.tail := rfl
@[simp] theorem drawn_draws : (s.drawn).draws = s.draws + 1 := rfl
@[simp] theorem drawn_reg (q : Reg) : (s.drawn).reg q = s.reg q := rfl
@[simp] theorem drawn_byteAt (adr : Nat) : (s.drawn).byteAt adr = s.byteAt adr := rfl
@[simp] theorem drawn_pixel (py px : Nat) : (s.drawn).pixel py px = s.pixel py px := rfl

@[simp] theorem raise_cfg (k : Fault) (o : Option Word) (a : Option Nat) : (s.raise k o a).cfg = s.cfg := rfl
@[simp] theorem raise_x (k : Fault) (o : Option Word) (a : Option Nat) : (s.raise k o a).x = s.x := rfl
@[simp] theorem raise_i (k : Fault) (o : Option Word) (a : Option Nat) : (s.raise k o a).i = s.i := rfl
@[simp] theorem raise_pc (k : Fault) (o : Option Word) (a : Option Nat) : (s.raise k o a).pc = s.pc := rfl
@[simp] theorem raise_stack (k : Fault) (o : Option Word) (a : Option Nat) : (s.raise k o a).stack = s.stack := rfl
@[simp] theorem raise_mem (k : Fault) (o : Option Word) (a : Option Nat) : (s.raise k o a).mem = s.mem := rfl
@[simp] theorem raise_fb (k : Fault) (o : Option Word) (a : Option Nat) : (s.raise k o a).fb = s.fb := rfl
@[simp] theorem raise_dt (k : Fault) (o : Option Word) (a : Option Nat) : (s.raise k o a).dt = s.dt := rfl
@[simp] theorem raise_fault (k : Fault) (o : Option Word) (a : Option Nat) : (s.raise k o a).fault = some { kind := k, atPc := s.pc, opcode := o, address := a } := rfl
@[simp] theorem raise_input (k : Fault) (o : Option Word) (a : Option Nat) : (s.raise k o a).input = s.input := rfl
@[simp] theorem raise_pending (k : Fault) (o : Option Word) (a : Option Nat) : (s.raise k o a).pending = s.pending := rfl
@[simp] theorem raise_random (k : Fault) (o : Option Word) (a : Option Nat) : (s.raise k o a).random = s.random := rfl
@[simp] theorem raise_draws (k : Fault) (o : Option Word) (a : Option Nat) : (s.raise k o a).draws = s.draws := rfl
@[simp] theorem raise_reg (k : Fault) (o : Option Word) (a : Option Nat) (q : Reg) : (s.raise k o a).reg q = s.reg q := rfl
@[simp] theorem raise_byteAt (k : Fault) (o : Option Word) (a : Option Nat) (adr : Nat) : (s.raise k o a).byteAt adr = s.byteAt adr := rfl
@[simp] theorem raise_pixel (k : Fault) (o : Option Word) (a : Option Nat) (py px : Nat) : (s.raise k o a).pixel py px = s.pixel py px := rfl

@[simp] theorem setWithFlag_cfg (r : Reg) (v : Byte) (b : Bool) : (s.setWithFlag r v b).cfg = s.cfg := rfl
@[simp] theorem setWithFlag_i (r : Reg) (v : Byte) (b : Bool) : (s.setWithFlag r v b).i = s.i := rfl
@[simp] theorem setWithFlag_pc (r : Reg) (v : Byte) (b : Bool) : (s.setWithFlag r v b).pc = s.pc := rfl
@[simp] theorem setWithFlag_stack (r : Reg) (v : Byte) (b : Bool) : (s.setWithFlag r v b).stack = s.stack := rfl
@[simp] theorem setWithFlag_mem (r : Reg) (v : Byte) (b : Bool) : (s.setWithFlag r v b).mem = s.mem := rfl
@[simp] theorem setWithFlag_fb (r : Reg) (v : Byte) (b : Bool) : (s.setWithFlag r v b).fb = s.fb := rfl
@[simp] theorem setWithFlag_dt (r : Reg) (v : Byte) (b : Bool) : (s.setWithFlag r v b).dt = s.dt := rfl
@[simp] theorem setWithFlag_fault (r : Reg) (v : Byte) (b : Bool) : (s.setWithFlag r v b).fault = s.fault := rfl
@[simp] theorem setWithFlag_input (r : Reg) (v : Byte) (b : Bool) : (s.setWithFlag r v b).input = s.input := rfl
@[simp] theorem setWithFlag_pending (r : Reg) (v : Byte) (b : Bool) : (s.setWithFlag r v b).pending = s.pending := rfl
@[simp] theorem setWithFlag_random (r : Reg) (v : Byte) (b : Bool) : (s.setWithFlag r v b).random = s.random := rfl
@[simp] theorem setWithFlag_draws (r : Reg) (v : Byte) (b : Bool) : (s.setWithFlag r v b).draws = s.draws := rfl
@[simp] theorem setWithFlag_byteAt (r : Reg) (v : Byte) (b : Bool) (adr : Nat) : (s.setWithFlag r v b).byteAt adr = s.byteAt adr := rfl
@[simp] theorem setWithFlag_pixel (r : Reg) (v : Byte) (b : Bool) (py px : Nat) : (s.setWithFlag r v b).pixel py px = s.pixel py px := rfl

@[simp] theorem advance_cfg : (s.advance).cfg = s.cfg := rfl
@[simp] theorem advance_x : (s.advance).x = s.x := rfl
@[simp] theorem advance_i : (s.advance).i = s.i := rfl
@[simp] theorem advance_pc : (s.advance).pc = s.pc + 2#16 := rfl
@[simp] theorem advance_stack : (s.advance).stack = s.stack := rfl
@[simp] theorem advance_mem : (s.advance).mem = s.mem := rfl
@[simp] theorem advance_fb : (s.advance).fb = s.fb := rfl
@[simp] theorem advance_dt : (s.advance).dt = s.dt := rfl
@[simp] theorem advance_fault : (s.advance).fault = s.fault := rfl
@[simp] theorem advance_input : (s.advance).input = s.input := rfl
@[simp] theorem advance_pending : (s.advance).pending = s.pending := rfl
@[simp] theorem advance_random : (s.advance).random = s.random := rfl
@[simp] theorem advance_draws : (s.advance).draws = s.draws := rfl
@[simp] theorem advance_reg (q : Reg) : (s.advance).reg q = s.reg q := rfl
@[simp] theorem advance_byteAt (adr : Nat) : (s.advance).byteAt adr = s.byteAt adr := rfl
@[simp] theorem advance_pixel (py px : Nat) : (s.advance).pixel py px = s.pixel py px := rfl

/-- A register after a register write. -/
@[simp] theorem setReg_reg (r : Reg) (v : Byte) (q : Reg) : (s.setReg r v).reg q = if q = r then v else s.reg q := by
  simp only [State.setReg, State.reg, Vector.getElem_set, BitVec.toNat_inj, eq_comm]

/-- A register after a result and its flag were written: the flag wins in `VF` (41_alu.md R133). -/
@[simp] theorem setWithFlag_reg (r : Reg) (v : Byte) (b : Bool) (q : Reg) :
    (s.setWithFlag r v b).reg q = if q = regF then flagByte b else if q = r then v else s.reg q := by
  simp [State.setWithFlag]

/-- A register after a block of registers was loaded: the first ones take the bytes, the others stay. -/
@[simp] theorem setRegs_reg (v : List Byte) (q : Reg) : (s.setRegs v).reg q = v.getD q.toNat (s.reg q) := by
  simp [State.setRegs, State.reg]

end Sys2Proof.Machine
end

