-- ==== Sys2Proof/Laws/Display.lean ====
section
/-! SUPPORT. The display: reading a pixel after writing one, the shape of the grid, and a draw as one list of pixel operations. -/

namespace Sys2Proof.Machine

theorem Display.wf_iff (c : Config) (fb : List (List Bool)) :
    Display.wf c fb = true ↔ fb.length = c.displayH ∧ ∀ row ∈ fb, row.length = c.displayW := by
  simp [Display.wf]

theorem Display.blank_wf (c : Config) : Display.wf c (Display.blank c) = true := by
  rw [Display.wf_iff]
  exact ⟨by simp [Display.blank], fun row hr => by rw [List.eq_of_mem_replicate hr]; simp⟩

@[simp] theorem Display.pixel_blank (c : Config) (r col : Nat) : Display.pixel (Display.blank c) r col = false := by
  simp only [Display.pixel, Display.blank, List.getD_eq_getElem?_getD, List.getElem?_replicate]
  split <;> simp only [Option.getD_some, Option.getD_none, List.getElem?_replicate, List.getElem?_nil]
  split <;> rfl

/-- The row a pixel lies in has the grid's width. -/
theorem Display.row_length (c : Config) (fb : List (List Bool)) (h : Display.wf c fb = true) (r : Nat)
    (hr : r < c.displayH) : (fb.getD r []).length = c.displayW := by
  rw [Display.wf_iff] at h
  have : r < fb.length := by omega
  rw [List.getD_eq_getElem?_getD, List.getElem?_eq_getElem this]
  exact h.2 _ (List.getElem_mem this)

/-- Writing a pixel of the grid keeps its shape. -/
theorem Display.setPixel_wf (c : Config) (fb : List (List Bool)) (h : Display.wf c fb = true) (r col : Nat) (b : Bool)
    (hr : r < c.displayH) : Display.wf c (Display.setPixel fb r col b) = true := by
  have hl := Display.row_length c fb h r hr
  rw [Display.wf_iff] at h ⊢
  refine ⟨by simpa [Display.setPixel] using h.1, fun row hm => ?_⟩
  rcases List.mem_or_eq_of_mem_set hm with hm | rfl
  · exact h.2 row hm
  · rw [List.length_set, hl]

/-- A pixel after a pixel of the grid was written. -/
theorem Display.pixel_setPixel (c : Config) (fb : List (List Bool)) (h : Display.wf c fb = true) (r col r' col' : Nat)
    (b : Bool) (hr : r < c.displayH) (hc : col < c.displayW) :
    Display.pixel (Display.setPixel fb r col b) r' col' = if r' = r ∧ col' = col then b else Display.pixel fb r' col' := by
  have hl := Display.row_length c fb h r hr
  have hlen : r < fb.length := by rw [((Display.wf_iff ..).mp h).1]; exact hr
  by_cases h1 : r' = r
  · subst h1
    by_cases h2 : col' = col
    · subst h2
      have : col' < (fb[r']).length := by
        rw [List.getD_eq_getElem?_getD, List.getElem?_eq_getElem hlen] at hl; simpa using hl ▸ hc
      simp [Display.pixel, Display.setPixel, hlen, this]
    · simp [Display.pixel, Display.setPixel, hlen, h2, Ne.symm h2]
  · simp [Display.pixel, Display.setPixel, h1, Ne.symm h1]

/-! ## A draw as a list of pixel operations -/

/-- One pixel operation: XOR a bit into the pixel in row `p.1` and column `p.2.1`, and collect a collision. -/
def Display.xorAt (acc : List (List Bool) × Bool) (p : Nat × Nat × Bool) : List (List Bool) × Bool :=
  (Display.setPixel acc.1 p.1 p.2.1 (Display.pixel acc.1 p.1 p.2.1 ^^ p.2.2),
    acc.2 || (Display.pixel acc.1 p.1 p.2.1 && p.2.2))

/-- The pixel operations of a draw, in the order of 42_display.md R142. -/
def Display.targets (c : Config) (bytes : List Byte) (x0 y0 : Nat) : List (Nat × Nat × Bool) :=
  bytes.zipIdx.flatMap fun rb => (List.range 8).map fun col =>
    ((y0 + rb.2) % c.displayH, (x0 + col) % c.displayW, Display.spriteBit rb.1 col)

theorem Display.draw_eq_foldl (c : Config) (bytes : List Byte) (x0 y0 : Nat) (fb : List (List Bool)) :
    Display.draw c bytes x0 y0 fb = (Display.targets c bytes x0 y0).foldl Display.xorAt (fb, false) := by
  rw [Display.targets, List.foldl_flatMap, Display.draw]
  congr 1

theorem Display.targets_inside (c : Config) (bytes : List Byte) (x0 y0 : Nat) (hw : 1 ≤ c.displayW) (hh : 1 ≤ c.displayH) :
    ∀ p ∈ Display.targets c bytes x0 y0, p.1 < c.displayH ∧ p.2.1 < c.displayW := by
  intro p hp
  simp only [Display.targets, List.mem_flatMap, List.mem_map] at hp
  obtain ⟨rb, -, col, -, rfl⟩ := hp
  exact ⟨Nat.mod_lt _ hh, Nat.mod_lt _ hw⟩

/-- How many of the pixel operations XOR a 1 into a pixel. -/
def Display.count (ops : List (Nat × Nat × Bool)) (r col : Nat) : Nat :=
  ops.countP fun p => p.2.2 && p.1 == r && p.2.1 == col

/-- What a list of pixel operations inside the grid does: it keeps the grid's shape, flips a pixel once per 1 bit that falls on
it, and finds a collision exactly when such a bit met a lit pixel. -/
theorem Display.foldl_xorAt (c : Config) (ops : List (Nat × Nat × Bool)) (fb : List (List Bool)) (hit : Bool)
    (hw : Display.wf c fb = true) (hin : ∀ p ∈ ops, p.1 < c.displayH ∧ p.2.1 < c.displayW) :
    Display.wf c (ops.foldl Display.xorAt (fb, hit)).1 = true ∧
    (∀ r col, Display.pixel (ops.foldl Display.xorAt (fb, hit)).1 r col =
      (Display.pixel fb r col ^^ decide (Display.count ops r col % 2 = 1))) ∧
    ((ops.foldl Display.xorAt (fb, hit)).2 = true ↔ hit = true ∨ ∃ r col, r < c.displayH ∧ col < c.displayW ∧
      ((Display.pixel fb r col = true ∧ 1 ≤ Display.count ops r col) ∨ 2 ≤ Display.count ops r col)) := by
  induction ops generalizing fb hit with
  | nil => simp [Display.count, hw]
  | cons p ops ih =>
    obtain ⟨pr, pc, bit⟩ := p
    obtain ⟨hr, hc⟩ := hin (pr, pc, bit) (by simp)
    have hcount : ∀ r col, Display.count ((pr, pc, bit) :: ops) r col =
        Display.count ops r col + if r = pr ∧ col = pc ∧ bit = true then 1 else 0 := by
      intro r col
      simp only [Display.count, List.countP_cons]
      congr 1
      simp only [Bool.and_eq_true, beq_iff_eq]
      exact if_congr ⟨fun ⟨⟨a, b⟩, d⟩ => ⟨b.symm, d.symm, a⟩, fun ⟨a, b, d⟩ => ⟨⟨d, a.symm⟩, b.symm⟩⟩ rfl rfl
    have hpix := fun r col => Display.pixel_setPixel c fb hw pr pc r col (Display.pixel fb pr pc ^^ bit) hr hc
    obtain ⟨i1, i2, i3⟩ := ih (Display.setPixel fb pr pc (Display.pixel fb pr pc ^^ bit))
      (hit || (Display.pixel fb pr pc && bit)) (Display.setPixel_wf c fb hw pr pc _ hr) fun p hp => hin p (by simp [hp])
    refine ⟨i1, fun r col => ?_, ?_⟩
    · refine (i2 r col).trans ?_
      rw [hpix, hcount]
      by_cases he : r = pr ∧ col = pc
      · obtain ⟨rfl, rfl⟩ := he
        cases bit
        · simp
        · rcases Nat.mod_two_eq_zero_or_one (Display.count ops r col) with hm | hm <;> simp [hm, Nat.add_mod]
      · rw [if_neg he, if_neg fun h => he ⟨h.1, h.2.1⟩]; rfl
    · refine i3.trans ?_
      simp only [hpix, hcount, Bool.or_eq_true, Bool.and_eq_true]
      constructor
      · rintro ((h | ⟨h, hb⟩) | ⟨r, col, h1, h2, h⟩)
        · exact .inl h
        · exact .inr ⟨pr, pc, hr, hc, .inl ⟨h, by simp [hb]⟩⟩
        · refine .inr ⟨r, col, h1, h2, ?_⟩
          by_cases he : r = pr ∧ col = pc
          · obtain ⟨rfl, rfl⟩ := he
            cases bit
            · simpa using h
            · rw [if_pos ⟨rfl, rfl⟩] at h
              rw [if_pos ⟨rfl, rfl, rfl⟩]
              rcases h with ⟨_, h⟩ | h
              · exact .inr (by omega)
              · exact .inr (by omega)
          · rw [if_neg he] at h
            rcases h with ⟨hp, h⟩ | h
            · exact .inl ⟨hp, by omega⟩
            · exact .inr (by omega)
      · rintro (h | ⟨r, col, h1, h2, h⟩)
        · exact .inl (.inl h)
        · by_cases he : r = pr ∧ col = pc ∧ bit = true
          · obtain ⟨rfl, rfl, rfl⟩ := he
            rw [if_pos ⟨rfl, rfl, rfl⟩] at h
            by_cases hp : Display.pixel fb r col = true
            · exact .inl (.inr ⟨hp, rfl⟩)
            · refine .inr ⟨r, col, h1, h2, .inl ⟨by simp [hp], ?_⟩⟩
              rcases h with ⟨h, _⟩ | h
              · exact absurd h hp
              · omega
          · rw [if_neg he] at h
            refine .inr ⟨r, col, h1, h2, ?_⟩
            by_cases he' : r = pr ∧ col = pc
            · obtain ⟨rfl, rfl⟩ := he'
              have hb : bit = false := by
                cases bit
                · rfl
                · exact absurd ⟨rfl, rfl, rfl⟩ he
              rw [if_pos ⟨rfl, rfl⟩, hb]
              simpa using h
            · rw [if_neg he']
              simpa using h

/-- A draw keeps the shape of the grid. -/
theorem Display.draw_wf (c : Config) (bytes : List Byte) (x0 y0 : Nat) (fb : List (List Bool)) (hw : 1 ≤ c.displayW)
    (hh : 1 ≤ c.displayH) (h : Display.wf c fb = true) : Display.wf c (Display.draw c bytes x0 y0 fb).1 = true := by
  rw [Display.draw_eq_foldl]
  exact (Display.foldl_xorAt c _ fb false h (Display.targets_inside c bytes x0 y0 hw hh)).1

/-- A legal configuration has a grid of at least one pixel. -/
theorem Config.wf_grid (c : Config) (h : c.wf = true) : 1 ≤ c.displayW ∧ 1 ≤ c.displayH := by
  simp only [Config.wf, Bool.and_eq_true, decide_eq_true_eq] at h
  exact ⟨h.1.1.1.1, h.1.1.1.2⟩

end Sys2Proof.Machine
end

