-- ==== Sys2Proof/Laws/Encoding.lean ====
section
/-! SUPPORT. The fields of the words that the encoder packs (30_encoding.md R81, R82), and that a word is its fields. -/

namespace Sys2Proof

@[simp] theorem fieldG_packNibbles (g x y n : BitVec 4) : fieldG (packNibbles g x y n) = g := by
  ext i hi
  simp only [fieldG, packNibbles, BitVec.getElem_extractLsb', BitVec.getLsbD_append]
  rw [if_neg (by omega)]
  rw [BitVec.getLsbD_eq_getElem (by omega)]; congr 1; omega

@[simp] theorem fieldX_packNibbles (g x y n : BitVec 4) : fieldX (packNibbles g x y n) = x := by
  ext i hi
  simp only [fieldX, packNibbles, BitVec.getElem_extractLsb', BitVec.getLsbD_append]
  rw [if_pos (by omega), if_neg (by omega)]
  rw [BitVec.getLsbD_eq_getElem (by omega)]; congr 1; omega

@[simp] theorem fieldY_packNibbles (g x y n : BitVec 4) : fieldY (packNibbles g x y n) = y := by
  ext i hi
  simp only [fieldY, packNibbles, BitVec.getElem_extractLsb', BitVec.getLsbD_append]
  rw [if_pos (by omega), if_pos (by omega), if_neg (by omega)]
  rw [BitVec.getLsbD_eq_getElem (by omega)]; congr 1; omega

@[simp] theorem fieldN_packNibbles (g x y n : BitVec 4) : fieldN (packNibbles g x y n) = n := by
  ext i hi
  simp only [fieldN, packNibbles, BitVec.getElem_extractLsb', BitVec.getLsbD_append]
  rw [if_pos (by omega), if_pos (by omega), if_pos (by omega)]
  rw [BitVec.getLsbD_eq_getElem (by omega)]; congr 1; omega

@[simp] theorem fieldG_packImm (g x : BitVec 4) (nn : Byte) : fieldG (packImm g x nn) = g := by
  ext i hi
  simp only [fieldG, packImm, BitVec.getElem_extractLsb', BitVec.getLsbD_append]
  rw [if_neg (by omega)]
  rw [BitVec.getLsbD_eq_getElem (by omega)]; congr 1; omega

@[simp] theorem fieldX_packImm (g x : BitVec 4) (nn : Byte) : fieldX (packImm g x nn) = x := by
  ext i hi
  simp only [fieldX, packImm, BitVec.getElem_extractLsb', BitVec.getLsbD_append]
  rw [if_pos (by omega), if_neg (by omega)]
  rw [BitVec.getLsbD_eq_getElem (by omega)]; congr 1; omega

@[simp] theorem fieldNN_packImm (g x : BitVec 4) (nn : Byte) : fieldNN (packImm g x nn) = nn := by
  ext i hi
  simp only [fieldNN, packImm, BitVec.getElem_extractLsb', BitVec.getLsbD_append]
  rw [if_pos (by omega), if_pos (by omega)]
  rw [BitVec.getLsbD_eq_getElem (by omega)]; congr 1; omega

@[simp] theorem fieldG_packAddr (g : BitVec 4) (nnn : Addr12) : fieldG (packAddr g nnn) = g := by
  ext i hi
  simp only [fieldG, packAddr, BitVec.getElem_extractLsb', BitVec.getLsbD_append]
  rw [if_neg (by omega)]
  rw [BitVec.getLsbD_eq_getElem (by omega)]; congr 1; omega

@[simp] theorem fieldNNN_packAddr (g : BitVec 4) (nnn : Addr12) : fieldNNN (packAddr g nnn) = nnn := by
  ext i hi
  simp only [fieldNNN, packAddr, BitVec.getElem_extractLsb', BitVec.getLsbD_append]
  rw [if_pos (by omega)]
  rw [BitVec.getLsbD_eq_getElem (by omega)]; congr 1; omega

/-- A word is its four nibbles. -/
theorem packNibbles_fields (op : Word) : packNibbles (fieldG op) (fieldX op) (fieldY op) (fieldN op) = op := by
  apply BitVec.eq_of_getLsbD_eq
  intro i hi
  simp only [packNibbles, fieldG, fieldX, fieldY, fieldN, BitVec.getLsbD_append, BitVec.getLsbD_extractLsb']
  by_cases h12 : i < 12
  · by_cases h8 : i < 8
    · by_cases h4 : i < 4
      · simp [h12, h8, h4]
      · simp [h12, h8, h4, show i - 4 < 4 by omega, show 4 + (i - 4) = i by omega]
    · simp [h12, h8, show i - 8 < 4 by omega, show 8 + (i - 8) = i by omega]
  · simp [h12, show i - 12 < 4 by omega, show 12 + (i - 12) = i by omega]

/-- A word is its group, `X` and `NN`. -/
theorem packImm_fields (op : Word) : packImm (fieldG op) (fieldX op) (fieldNN op) = op := by
  apply BitVec.eq_of_getLsbD_eq
  intro i hi
  simp only [packImm, fieldG, fieldX, fieldNN, BitVec.getLsbD_append, BitVec.getLsbD_extractLsb']
  by_cases h12 : i < 12
  · by_cases h8 : i < 8
    · simp [h12, h8]
    · simp [h12, h8, show i - 8 < 4 by omega, show 8 + (i - 8) = i by omega]
  · simp [h12, show i - 12 < 4 by omega, show 12 + (i - 12) = i by omega]

/-- A word is its group and `NNN`. -/
theorem packAddr_fields (op : Word) : packAddr (fieldG op) (fieldNNN op) = op := by
  apply BitVec.eq_of_getLsbD_eq
  intro i hi
  simp only [packAddr, fieldG, fieldNNN, BitVec.getLsbD_append, BitVec.getLsbD_extractLsb']
  split
  · simp_all
  · have : 12 + (i - 12) = i := by omega
    have : i - 12 < 4 := by omega
    simp_all

/-- The two bytes of a word make it again (20_memory.md R55). -/
theorem wordOfBytes_bytes (op : Word) : wordOfBytes (highByte op) (lowByte op) = op := by
  apply BitVec.eq_of_getLsbD_eq
  intro i hi
  simp only [wordOfBytes, highByte, lowByte, BitVec.getLsbD_append, BitVec.getLsbD_extractLsb']
  split
  · simp_all
  · have : 8 + (i - 8) = i := by omega
    have : i - 8 < 8 := by omega
    simp_all

end Sys2Proof
end

