-- ==== Sys2Proof/Laws/Memory.lean ====
section
/-! SUPPORT. What the memory operations do: reading after writing, the canonical form, the bounds test, and accesses to
several consecutive addresses. -/

namespace Sys2Proof.Machine

/-! ## The memory list -/

theorem Memory.read_erase (c : Config) (m : List Host.Cell) (a b : Nat) :
    Memory.read c (Memory.erase m a) b = if b = a then Memory.unlisted c b else Memory.read c m b := by
  induction m with
  | nil => simp [Memory.erase, Memory.read]
  | cons p m ih =>
    obtain ⟨k, w⟩ := p
    by_cases hk : k = a
    · subst hk
      have : Memory.erase ((k, w) :: m) k = Memory.erase m k := by simp [Memory.erase]
      rw [this, ih]
      by_cases hb : b = k <;> simp [hb, Memory.read]
    · have : Memory.erase ((k, w) :: m) a = (k, w) :: Memory.erase m a := by simp [Memory.erase, hk]
      rw [this]
      simp only [Memory.read, ih]
      by_cases hb : b = k
      · subst hb; simp [hk]
      · simp [hb]

theorem Memory.read_insert (c : Config) (m : List Host.Cell) (a : Nat) (v : Byte) (b : Nat)
    (h : ∀ p ∈ m, p.1 ≠ a) :
    Memory.read c (Memory.insert m a v) b = if b = a then v else Memory.read c m b := by
  induction m with
  | nil => rfl
  | cons p m ih =>
    obtain ⟨k, w⟩ := p
    have hk : k ≠ a := h (k, w) (by simp)
    simp only [Memory.insert]
    split
    · rfl
    · simp only [Memory.read, ih fun p hp => h p (by simp [hp])]
      by_cases hb : b = k
      · subst hb; simp [hk]
      · simp [hb]

/-- Reading after a write: the byte written, and every other byte as before (20_memory.md R52, R53). -/
theorem Memory.read_write (c : Config) (m : List Host.Cell) (a : Nat) (v : Byte) (b : Nat) :
    Memory.read c (Memory.write c m a v) b = if b = a then v else Memory.read c m b := by
  unfold Memory.write
  split
  · next h => rw [Memory.read_erase]; split <;> simp_all
  · rw [Memory.read_insert _ _ _ _ _ (by simp [Memory.erase]), Memory.read_erase]
    split <;> simp_all

theorem Memory.mem_insert (m : List Host.Cell) (a : Nat) (v : Byte) (p : Host.Cell) :
    p ∈ Memory.insert m a v ↔ p = (a, v) ∨ p ∈ m := by
  induction m with
  | nil => simp [Memory.insert]
  | cons q m ih =>
    simp only [Memory.insert]
    split
    · simp
    · simp only [List.mem_cons, ih]; tauto

theorem Memory.insert_rising (m : List Host.Cell) (a : Nat) (v : Byte)
    (h : m.Pairwise fun p q => p.1 < q.1) (ha : ∀ p ∈ m, p.1 ≠ a) :
    (Memory.insert m a v).Pairwise fun p q => p.1 < q.1 := by
  induction m with
  | nil => simp [Memory.insert]
  | cons q m ih =>
    have hq := List.pairwise_cons.mp h
    simp only [Memory.insert]
    split
    · next hlt =>
      refine List.pairwise_cons.mpr ⟨fun p hp => ?_, h⟩
      rcases List.mem_cons.mp hp with rfl | hp
      · exact hlt
      · exact Nat.lt_trans hlt (hq.1 p hp)
    · next hge =>
      have hne := ha q (by simp)
      refine List.pairwise_cons.mpr ⟨fun p hp => ?_, ih hq.2 fun p hp => ha p (by simp [hp])⟩
      rcases (Memory.mem_insert ..).mp hp with rfl | hp
      · exact Nat.lt_of_le_of_ne (Nat.le_of_not_lt hge) hne
      · exact hq.1 p hp

/-- A write to an address that exists keeps the canonical form. -/
theorem Memory.write_wf (c : Config) (m : List Host.Cell) (a : Nat) (v : Byte) (ha : a < memSize)
    (h : Memory.wf c m) : Memory.wf c (Memory.write c m a v) := by
  have he : (Memory.erase m a).Pairwise fun p q => p.1 < q.1 := h.1.filter _
  have hm : ∀ p ∈ Memory.erase m a, p.1 < memSize ∧ p.2 ≠ Memory.unlisted c p.1 :=
    fun p hp => h.2 p (List.mem_filter.mp hp).1
  unfold Memory.write
  split
  · exact ⟨he, hm⟩
  · next hv =>
    refine ⟨Memory.insert_rising _ _ _ he (by simp [Memory.erase]), fun p hp => ?_⟩
    rcases (Memory.mem_insert ..).mp hp with rfl | hp
    · exact ⟨ha, hv⟩
    · exact hm p hp

/-- The memory of a machine right after reset has the canonical form. -/
theorem Memory.reset_wf (c : Config) : Memory.wf c (State.resetWith c).mem := ⟨List.Pairwise.nil, by simp [State.resetWith]⟩

/-! ## Bytes of a state -/

variable (s : State)

@[simp] theorem poke_byteAt (a : Nat) (v : Byte) (b : Nat) :
    (s.poke a v).byteAt b = if b = a then v else s.byteAt b := Memory.read_write ..

/-- Storing bytes at consecutive addresses touches memory only. -/
theorem pokes_eq (s : State) (a : Nat) (vs : List Byte) : s.pokes a vs = { s with mem := (s.pokes a vs).mem } := by
  induction vs generalizing s a with
  | nil => rfl
  | cons v vs ih => rw [State.pokes, ih]; rfl

@[simp] theorem pokes_cfg (a : Nat) (vs : List Byte) : (s.pokes a vs).cfg = s.cfg := by rw [pokes_eq]
@[simp] theorem pokes_x (a : Nat) (vs : List Byte) : (s.pokes a vs).x = s.x := by rw [pokes_eq]
@[simp] theorem pokes_i (a : Nat) (vs : List Byte) : (s.pokes a vs).i = s.i := by rw [pokes_eq]
@[simp] theorem pokes_pc (a : Nat) (vs : List Byte) : (s.pokes a vs).pc = s.pc := by rw [pokes_eq]
@[simp] theorem pokes_stack (a : Nat) (vs : List Byte) : (s.pokes a vs).stack = s.stack := by rw [pokes_eq]
@[simp] theorem pokes_fb (a : Nat) (vs : List Byte) : (s.pokes a vs).fb = s.fb := by rw [pokes_eq]
@[simp] theorem pokes_dt (a : Nat) (vs : List Byte) : (s.pokes a vs).dt = s.dt := by rw [pokes_eq]
@[simp] theorem pokes_fault (a : Nat) (vs : List Byte) : (s.pokes a vs).fault = s.fault := by rw [pokes_eq]
@[simp] theorem pokes_input (a : Nat) (vs : List Byte) : (s.pokes a vs).input = s.input := by rw [pokes_eq]
@[simp] theorem pokes_pending (a : Nat) (vs : List Byte) : (s.pokes a vs).pending = s.pending := by rw [pokes_eq]
@[simp] theorem pokes_random (a : Nat) (vs : List Byte) : (s.pokes a vs).random = s.random := by rw [pokes_eq]
@[simp] theorem pokes_draws (a : Nat) (vs : List Byte) : (s.pokes a vs).draws = s.draws := by rw [pokes_eq]
@[simp] theorem pokes_reg (a : Nat) (vs : List Byte) (q : Reg) : (s.pokes a vs).reg q = s.reg q := by
  rw [pokes_eq]; rfl

/-- A byte after bytes were stored at consecutive addresses. -/
theorem pokes_byteAt (s : State) (a : Nat) (vs : List Byte) (b : Nat) :
    (s.pokes a vs).byteAt b = if a ≤ b ∧ b < a + vs.length then vs.getD (b - a) 0#8 else s.byteAt b := by
  induction vs generalizing s a with
  | nil => simp only [State.pokes, List.length_nil]; rw [if_neg (by omega)]
  | cons v vs ih =>
    rw [State.pokes, ih, poke_byteAt, List.length_cons]
    by_cases hb : b = a
    · subst hb
      rw [if_neg (by omega), if_pos rfl, if_pos (by omega), Nat.sub_self]; rfl
    · by_cases hin : a + 1 ≤ b ∧ b < a + 1 + vs.length
      · obtain ⟨k, rfl⟩ : ∃ k, b = a + 1 + k := ⟨b - (a + 1), by omega⟩
        rw [if_pos hin, if_pos (by omega), show a + 1 + k - (a + 1) = k by omega, show a + 1 + k - a = k + 1 by omega]
        rfl
      · rw [if_neg hin, if_neg hb, if_neg (by omega)]

/-- Storing at addresses that exist keeps the canonical form. -/
theorem pokes_wf (s : State) (a : Nat) (vs : List Byte) (ha : a + vs.length ≤ memSize) (h : Memory.wf s.cfg s.mem) :
    Memory.wf s.cfg (s.pokes a vs).mem := by
  induction vs generalizing s a with
  | nil => exact h
  | cons v vs ih =>
    rw [List.length_cons] at ha
    exact ih (s.poke a v) (a + 1) (by omega) (Memory.write_wf _ _ _ _ (by omega) h)

/-! ## The bounds test and accesses under it -/

/-- The smallest failing address of `n` consecutive ones (20_memory.md R67). -/
theorem firstOutOfBounds_eq (base n : Nat) :
    firstOutOfBounds base n = if n = 0 ∨ base + n ≤ memSize then none else some (max base memSize) := by
  induction n with
  | zero => simp [firstOutOfBounds]
  | succ n ih =>
    have hs : firstOutOfBounds base (n + 1) =
        (firstOutOfBounds base n).or (if memSize ≤ base + n then some (base + n) else none) := by
      simp only [firstOutOfBounds, List.range_succ, List.map_append, List.map_cons, List.map_nil, List.find?_append]
      congr 1
      simp only [List.find?_cons, List.find?_nil]
      split <;> simp_all
    rw [hs, ih]
    by_cases h0 : n = 0
    · subst h0
      by_cases hb : memSize ≤ base
      · rw [if_pos (Or.inl rfl), Option.none_or, if_pos (by omega), if_neg (by omega), max_eq_left hb, Nat.add_zero]
      · rw [if_pos (Or.inl rfl), Option.none_or, if_neg (by omega), if_pos (by omega)]
    · by_cases hn : base + n ≤ memSize
      · rw [if_pos (Or.inr hn), Option.none_or]
        by_cases he : memSize ≤ base + n
        · have : base + n = memSize := by omega
          rw [if_pos he, if_neg (by omega), max_eq_right (by omega), this]
        · rw [if_neg he, if_pos (by omega)]
      · rw [if_neg (show ¬(n = 0 ∨ base + n ≤ memSize) by omega), Option.some_or,
          if_neg (show ¬(n + 1 = 0 ∨ base + (n + 1) ≤ memSize) by omega)]

/-- Reading `n` bytes: all of them, or the smallest failing address. -/
theorem memReads_eq (base n : Nat) :
    s.memReads base n = if n = 0 ∨ base + n ≤ memSize then .ok ((List.range n).map fun k => s.byteAt (base + k))
      else .error (max base memSize) := by
  unfold State.memReads
  rw [firstOutOfBounds_eq]
  split <;> simp_all

/-- Writing bytes: all of them, or the smallest failing address and nothing. -/
theorem memWrites_eq (base : Nat) (vs : List Byte) :
    s.memWrites base vs = if vs.length = 0 ∨ base + vs.length ≤ memSize then .ok (s.pokes base vs)
      else .error (max base memSize) := by
  unfold State.memWrites
  rw [firstOutOfBounds_eq]
  split <;> simp_all

theorem memReads_ok (base n : Nat) (h : n = 0 ∨ base + n ≤ memSize) :
    s.memReads base n = .ok ((List.range n).map fun k => s.byteAt (base + k)) := by rw [memReads_eq, if_pos h]

theorem memReads_error (base n : Nat) (h0 : n ≠ 0) (h : memSize < base + n) :
    s.memReads base n = .error (max base memSize) := by rw [memReads_eq, if_neg (by omega)]

theorem memWrites_ok (base : Nat) (vs : List Byte) (h : base + vs.length ≤ memSize) :
    s.memWrites base vs = .ok (s.pokes base vs) := by rw [memWrites_eq, if_pos (Or.inr h)]

theorem memWrites_error (base : Nat) (vs : List Byte) (h0 : vs.length ≠ 0) (h : memSize < base + vs.length) :
    s.memWrites base vs = .error (max base memSize) := by rw [memWrites_eq, if_neg (by omega)]

/-- The fetch succeeds exactly when `pc <= 0xFFE`, and names the failing address (40_control_flow.md R101). -/
theorem fetch_eq :
    s.fetch = if s.pc.toNat + 1 < memSize then .ok (wordOfBytes (s.byteAt s.pc.toNat) (s.byteAt (s.pc.toNat + 1)))
      else .error (max s.pc.toNat memSize) := by
  unfold State.fetch State.memRead
  by_cases h0 : memSize ≤ s.pc.toNat
  · simp only [if_pos h0, if_neg (show ¬s.pc.toNat + 1 < memSize by omega), max_eq_left h0]
  · by_cases h1 : memSize ≤ s.pc.toNat + 1
    · simp only [if_neg h0, if_pos h1, if_neg (show ¬s.pc.toNat + 1 < memSize by omega),
        max_eq_right (show s.pc.toNat ≤ memSize by omega)]
      rw [show s.pc.toNat + 1 = memSize by omega]
    · simp only [if_neg h0, if_neg h1, if_pos (show s.pc.toNat + 1 < memSize by omega)]

@[simp] theorem regsUpTo_length (x : Reg) : (s.regsUpTo x).length = x.toNat + 1 := by
  have := x.isLt
  simp [State.regsUpTo]; omega

@[simp] theorem decimalDigits_length (v : Byte) : (decimalDigits v).length = 3 := rfl

/-- The k-th byte of a block store is register `k` (44_address_memory.md R165). -/
theorem regsUpTo_getD (x q : Reg) (d : Byte) (h : q.toNat ≤ x.toNat) : (s.regsUpTo x).getD q.toNat d = s.reg q := by
  have hq := q.isLt
  simp only [State.regsUpTo, State.reg, List.getD_eq_getElem?_getD]
  rw [List.getElem?_take_of_lt (by omega)]
  simp [hq]

end Sys2Proof.Machine
end

