-- ==== Sys2Proof/Laws/PerInstr.lean ====
section
/-! SUPPORT. The family of statements made once per instruction: the word of an instruction matches its row of the
opcode map, so no operand, whatever its value, disturbs a bit that the row fixes (30_encoding.md R85, R86). -/

namespace Sys2Proof

/-- What a mask leaves of a word. -/
theorem packNibbles_mask_xy (g x y n : BitVec 4) : packNibbles g x y n &&& 0xF00F#16 = packNibbles g 0 0 n := by
  apply BitVec.eq_of_getLsbD_eq
  intro i hi
  simp only [packNibbles, BitVec.getLsbD_and, BitVec.getLsbD_append]
  have : i ∈ List.range 16 := by simpa using hi
  fin_cases this <;> simp

theorem packNibbles_mask_xyn (g x y n : BitVec 4) : packNibbles g x y n &&& 0xF000#16 = packNibbles g 0 0 0 := by
  apply BitVec.eq_of_getLsbD_eq
  intro i hi
  simp only [packNibbles, BitVec.getLsbD_and, BitVec.getLsbD_append]
  have : i ∈ List.range 16 := by simpa using hi
  fin_cases this <;> simp

theorem packImm_mask_x (g x : BitVec 4) (nn : Byte) : packImm g x nn &&& 0xF0FF#16 = packImm g 0 nn := by
  apply BitVec.eq_of_getLsbD_eq
  intro i hi
  simp only [packImm, BitVec.getLsbD_and, BitVec.getLsbD_append]
  have : i ∈ List.range 16 := by simpa using hi
  fin_cases this <;> simp

theorem packImm_mask_xnn (g x : BitVec 4) (nn : Byte) : packImm g x nn &&& 0xF000#16 = packImm g 0 0 := by
  apply BitVec.eq_of_getLsbD_eq
  intro i hi
  simp only [packImm, BitVec.getLsbD_and, BitVec.getLsbD_append]
  have : i ∈ List.range 16 := by simpa using hi
  fin_cases this <;> simp

theorem packAddr_mask_nnn (g : BitVec 4) (nnn : Addr12) : packAddr g nnn &&& 0xF000#16 = packAddr g 0 := by
  apply BitVec.eq_of_getLsbD_eq
  intro i hi
  simp only [packAddr, BitVec.getLsbD_and, BitVec.getLsbD_append]
  have : i ∈ List.range 16 := by simpa using hi
  fin_cases this <;> simp

namespace Laws.OpcodeRow

/-- The word of an instruction agrees with its row of the map on every bit of the row's mask. -/
def Statement (i : Instr) : Prop :=
  encode i &&& (opcodeRow i).1 = (opcodeRow i).2

theorem cls : Statement .cls := rfl

theorem ret : Statement .ret := rfl

theorem jp (nnn : Addr12) : Statement (.jp nnn) := (packAddr_mask_nnn ..).trans rfl

theorem call (nnn : Addr12) : Statement (.call nnn) := (packAddr_mask_nnn ..).trans rfl

theorem seImm (x : Reg) (nn : Byte) : Statement (.seImm x nn) := (packImm_mask_xnn ..).trans rfl

theorem sneImm (x : Reg) (nn : Byte) : Statement (.sneImm x nn) := (packImm_mask_xnn ..).trans rfl

theorem seReg (x y : Reg) : Statement (.seReg x y) := (packNibbles_mask_xy ..).trans rfl

theorem ldImm (x : Reg) (nn : Byte) : Statement (.ldImm x nn) := (packImm_mask_xnn ..).trans rfl

theorem addImm (x : Reg) (nn : Byte) : Statement (.addImm x nn) := (packImm_mask_xnn ..).trans rfl

theorem ldReg (x y : Reg) : Statement (.ldReg x y) := (packNibbles_mask_xy ..).trans rfl

theorem orReg (x y : Reg) : Statement (.orReg x y) := (packNibbles_mask_xy ..).trans rfl

theorem andReg (x y : Reg) : Statement (.andReg x y) := (packNibbles_mask_xy ..).trans rfl

theorem xorReg (x y : Reg) : Statement (.xorReg x y) := (packNibbles_mask_xy ..).trans rfl

theorem addReg (x y : Reg) : Statement (.addReg x y) := (packNibbles_mask_xy ..).trans rfl

theorem subReg (x y : Reg) : Statement (.subReg x y) := (packNibbles_mask_xy ..).trans rfl

theorem shr (x y : Reg) : Statement (.shr x y) := (packNibbles_mask_xy ..).trans rfl

theorem subnReg (x y : Reg) : Statement (.subnReg x y) := (packNibbles_mask_xy ..).trans rfl

theorem shl (x y : Reg) : Statement (.shl x y) := (packNibbles_mask_xy ..).trans rfl

theorem sneReg (x y : Reg) : Statement (.sneReg x y) := (packNibbles_mask_xy ..).trans rfl

theorem ldI (nnn : Addr12) : Statement (.ldI nnn) := (packAddr_mask_nnn ..).trans rfl

theorem jpV0 (nnn : Addr12) : Statement (.jpV0 nnn) := (packAddr_mask_nnn ..).trans rfl

theorem rnd (x : Reg) (nn : Byte) : Statement (.rnd x nn) := (packImm_mask_xnn ..).trans rfl

theorem drw (x y : Reg) (n : Nat) : Statement (.drw x y n) := (packNibbles_mask_xyn ..).trans rfl

theorem skp (x : Reg) : Statement (.skp x) := (packImm_mask_x ..).trans rfl

theorem sknp (x : Reg) : Statement (.sknp x) := (packImm_mask_x ..).trans rfl

theorem ldVxDt (x : Reg) : Statement (.ldVxDt x) := (packImm_mask_x ..).trans rfl

theorem ldVxK (x : Reg) : Statement (.ldVxK x) := (packImm_mask_x ..).trans rfl

theorem ldDtVx (x : Reg) : Statement (.ldDtVx x) := (packImm_mask_x ..).trans rfl

theorem ldStVx (x : Reg) : Statement (.ldStVx x) := (packImm_mask_x ..).trans rfl

theorem addI (x : Reg) : Statement (.addI x) := (packImm_mask_x ..).trans rfl

theorem ldF (x : Reg) : Statement (.ldF x) := (packImm_mask_x ..).trans rfl

theorem ldB (x : Reg) : Statement (.ldB x) := (packImm_mask_x ..).trans rfl

theorem storeRegs (x : Reg) : Statement (.storeRegs x) := (packImm_mask_x ..).trans rfl

theorem loadRegs (x : Reg) : Statement (.loadRegs x) := (packImm_mask_x ..).trans rfl

end Laws.OpcodeRow

end Sys2Proof
end

