-- ==== Sys2Proof/Laws/Session.lean ====
section
/-! SUPPORT. A session taken apart: its load, then one move after the other. -/

namespace Sys2Proof.Machine

@[simp] theorem hostMoves_nil (s : State) : s.hostMoves [] = .next s := rfl

/-- Moves reach a state exactly when the first reaches one from which the rest reach it. -/
theorem hostMoves_cons (s t : State) (m : HostMove) (ms : List HostMove) :
    s.hostMoves (m :: ms) = .next t ↔ ∃ u, s.hostMove m = .next u ∧ u.hostMoves ms = .next t := by
  rw [State.hostMoves]
  cases s.hostMove m <;> simp

/-- A load answers a next state exactly when the image fits, and then it is the reset state with the image placed. -/
theorem load_next (c : Config) (image : List Byte) (t : State) :
    State.load c image = .next t ↔ image.length ≤ memSize - origin ∧ t = (State.resetWith c).pokes origin image := by
  unfold State.load
  split
  · next h => simp; omega
  · next h => simp only [Host.Outcome.next.injEq, eq_comm]; exact ⟨fun e => ⟨by omega, e⟩, fun e => e.2⟩

/-- A session reaches a state exactly when the image fits and the moves reach it from the loaded machine. -/
theorem session_next (c : Config) (image : List Byte) (ms : List HostMove) (t : State) :
    State.session c image ms = .next t ↔
      image.length ≤ memSize - origin ∧ ((State.resetWith c).pokes origin image).hostMoves ms = .next t := by
  unfold State.session State.load
  split
  · next h => split at h <;> simp_all
  · next h => split at h <;> simp_all
  · next h => split at h <;> simp_all

end Sys2Proof.Machine
end

