-- ==== Sys2Proof/Laws/Step.lean ====
section
/-! SUPPORT. What sampling, ticking and skipping change, what the instructions with more than one outcome answer, and what a
step can do. -/

namespace Sys2Proof.Machine

variable (s : State)

/-! ## Tick, sample, skip -/

/-- The tick changes the timer only. -/
theorem tick_eq : s.tick = s.setDt s.tick.dt := by unfold State.tick; split <;> rfl

/-- The timer after a tick (43_input_timer.md R156). -/
theorem tick_dt : s.tick.dt.toNat = s.dt.toNat - 1 := by
  have h := s.dt.isLt
  unfold State.tick
  split
  · next h0 => simp [h0]
  · next h0 =>
    have : s.dt.toNat ≠ 0 := fun e => h0 (BitVec.eq_of_toNat_eq (by simpa using e))
    rw [setDt_dt, BitVec.toNat_sub, show (1#8).toNat = 1 from rfl]
    omega

/-- Sampling changes the snapshot and the supply of snapshots only. -/
theorem sample_eq : s.sample = { s with input := s.sample.input, pending := s.sample.pending } := by
  unfold State.sample; split <;> rfl

@[simp] theorem tick_cfg : s.tick.cfg = s.cfg := by rw [tick_eq]; rfl
@[simp] theorem tick_x : s.tick.x = s.x := by rw [tick_eq]; rfl
@[simp] theorem tick_i : s.tick.i = s.i := by rw [tick_eq]; rfl
@[simp] theorem tick_pc : s.tick.pc = s.pc := by rw [tick_eq]; rfl
@[simp] theorem tick_stack : s.tick.stack = s.stack := by rw [tick_eq]; rfl
@[simp] theorem tick_mem : s.tick.mem = s.mem := by rw [tick_eq]; rfl
@[simp] theorem tick_fb : s.tick.fb = s.fb := by rw [tick_eq]; rfl
@[simp] theorem tick_fault : s.tick.fault = s.fault := by rw [tick_eq]; rfl
@[simp] theorem tick_input : s.tick.input = s.input := by rw [tick_eq]; rfl
@[simp] theorem tick_pending : s.tick.pending = s.pending := by rw [tick_eq]; rfl
@[simp] theorem tick_random : s.tick.random = s.random := by rw [tick_eq]; rfl
@[simp] theorem tick_draws : s.tick.draws = s.draws := by rw [tick_eq]; rfl
@[simp] theorem tick_reg (q : Reg) : s.tick.reg q = s.reg q := by rw [tick_eq]; rfl
@[simp] theorem tick_byteAt (a : Nat) : s.tick.byteAt a = s.byteAt a := by rw [tick_eq]; rfl
@[simp] theorem tick_fetch : s.tick.fetch = s.fetch := by rw [tick_eq]; rfl
@[simp] theorem sample_cfg : s.sample.cfg = s.cfg := by rw [sample_eq]
@[simp] theorem sample_x : s.sample.x = s.x := by rw [sample_eq]
@[simp] theorem sample_i : s.sample.i = s.i := by rw [sample_eq]
@[simp] theorem sample_pc : s.sample.pc = s.pc := by rw [sample_eq]
@[simp] theorem sample_stack : s.sample.stack = s.stack := by rw [sample_eq]
@[simp] theorem sample_mem : s.sample.mem = s.mem := by rw [sample_eq]
@[simp] theorem sample_fb : s.sample.fb = s.fb := by rw [sample_eq]
@[simp] theorem sample_dt : s.sample.dt = s.dt := by rw [sample_eq]
@[simp] theorem sample_fault : s.sample.fault = s.fault := by rw [sample_eq]
@[simp] theorem sample_random : s.sample.random = s.random := by rw [sample_eq]
@[simp] theorem sample_draws : s.sample.draws = s.draws := by rw [sample_eq]
@[simp] theorem sample_reg (q : Reg) : s.sample.reg q = s.reg q := by rw [sample_eq]; rfl
@[simp] theorem sample_byteAt (a : Nat) : s.sample.byteAt a = s.byteAt a := by rw [sample_eq]; rfl
@[simp] theorem sample_fetch : s.sample.fetch = s.fetch := by rw [sample_eq]; rfl

/-- A skip sets `pc` and nothing else (40_control_flow.md R112). -/
theorem skipIf_eq (c : Bool) : s.skipIf c = s.setPc (if c then s.pc + 4#16 else s.pc + 2#16) := by cases c <;> rfl

/-! ## The instructions with more than one outcome -/

/-- `RET`: pops, or faults on an empty stack. -/
theorem exec_ret (s : State) : exec .ret s = .next (match s.stack.getLast? with
    | none => s.raiseExec .stackUnderflow .ret none
    | some v => (s.setStack s.stack.dropLast).setPc v) := by
  simp only [exec, execRet, State.pop]
  cases s.stack.getLast? <;> rfl

/-- `CALL`: pushes, or faults on a full stack. -/
theorem exec_call (nnn : Addr12) (s : State) : exec (.call nnn) s = .next (if s.stackFull = true
    then s.raiseExec .stackOverflow (.call nnn) none
    else (s.setStack (s.stack ++ [s.pc + 2#16])).setPc (addrOfLiteral nnn)) := by
  simp only [exec, execCall, State.push]
  cases s.stackFull <;> rfl

/-- The stack is full exactly when it is bounded and holds its bound. -/
theorem stackFull_iff (s : State) : s.stackFull = true ↔ ∃ d, s.cfg.stackDepth = some d ∧ d ≤ s.stack.length := by
  unfold State.stackFull
  cases s.cfg.stackDepth <;> simp

/-- `LD Vx, K`: stalls, or loads the code of the last key. -/
theorem exec_ldVxK (x : Reg) (s : State) : exec (.ldVxK x) s = .next (match s.input.last with
    | none => s
    | some k => (s.setReg x (byteOfKey k)).advance) := by
  simp only [exec, execLdVxK]
  cases s.input.last <;> rfl

/-- `DRW`: draws, or faults. -/
theorem exec_drw (x y : Reg) (n : Nat) (s : State) : exec (.drw x y n) s = .next (
    if n = 0 ∨ s.i.toNat + n ≤ memSize then
      ((s.setFb (Display.draw s.cfg ((List.range n).map fun k => s.byteAt (s.i.toNat + k)) (s.reg x).toNat
        (s.reg y).toNat s.fb).1).setReg regF
          (flagByte (Display.draw s.cfg ((List.range n).map fun k => s.byteAt (s.i.toNat + k)) (s.reg x).toNat
            (s.reg y).toNat s.fb).2)).advance
    else s.raiseExec .memoryOutOfBounds (.drw x y n) (some (max s.i.toNat memSize))) := by
  simp only [exec, execDrw, State.dataAddress]
  by_cases h : n = 0 ∨ s.i.toNat + n ≤ memSize
  · rw [memReads_ok _ _ _ h, if_pos h]
  · rw [memReads_error _ _ _ (by omega) (by omega), if_neg h]

/-- `LD B, Vx`: stores the digits, or faults. -/
theorem exec_ldB (x : Reg) (s : State) : exec (.ldB x) s = .next (
    if s.i.toNat + 3 ≤ memSize then (s.pokes s.i.toNat (decimalDigits (s.reg x))).advance
    else s.raiseExec .memoryOutOfBounds (.ldB x) (some (max s.i.toNat memSize))) := by
  simp only [exec, execLdB, State.dataAddress]
  by_cases h : s.i.toNat + 3 ≤ memSize
  · rw [memWrites_ok _ _ _ h, if_pos h]
  · rw [memWrites_error _ _ _ (by simp) (Nat.lt_of_not_le h), if_neg h]

/-- `LD [I], Vx`: stores the registers and advances `I`, or faults. -/
theorem exec_storeRegs (x : Reg) (s : State) : exec (.storeRegs x) s = .next (
    if s.i.toNat + (x.toNat + 1) ≤ memSize then
      ((s.pokes s.i.toNat (s.regsUpTo x)).setI (s.blockEnd x)).advance
    else s.raiseExec .memoryOutOfBounds (.storeRegs x) (some (max s.i.toNat memSize))) := by
  simp only [exec, execStoreRegs, State.dataAddress]
  by_cases h : s.i.toNat + (x.toNat + 1) ≤ memSize
  · rw [memWrites_ok _ _ _ (by rwa [regsUpTo_length]), if_pos h]
  · rw [memWrites_error _ _ _ (by simp) (by rw [regsUpTo_length]; omega), if_neg h]

/-- `LD Vx, [I]`: loads the registers and advances `I`, or faults. -/
theorem exec_loadRegs (x : Reg) (s : State) : exec (.loadRegs x) s = .next (
    if s.i.toNat + (x.toNat + 1) ≤ memSize then
      ((s.setRegs ((List.range (x.toNat + 1)).map fun k => s.byteAt (s.i.toNat + k))).setI (s.blockEnd x)).advance
    else s.raiseExec .memoryOutOfBounds (.loadRegs x) (some (max s.i.toNat memSize))) := by
  simp only [exec, execLoadRegs, State.dataAddress]
  by_cases h : s.i.toNat + (x.toNat + 1) ≤ memSize
  · rw [memReads_ok _ _ _ (Or.inr h), if_pos h]
  · rw [memReads_error _ _ _ (by omega) (by omega), if_neg h]

/-! ## What a step can do -/

/-- A step that answers a next state: the machine was halted and stands; or it was not, its parameters and snapshot are legal,
and the fetch faulted, or the word was unknown, or the decoded instruction ran. -/
theorem step_cases {s t : State} (h : step s = .next t) :
    (s.fault ≠ none ∧ t = s) ∨
    (s.fault = none ∧ s.cfg.wf = true ∧ s.sample.input.wf = true ∧
      ((s.pc.toNat + 1 ≥ memSize ∧
          t = s.sample.tick.raise .memoryOutOfBounds none (some (max s.pc.toNat memSize))) ∨
       ∃ op, s.fetch = .ok op ∧ s.pc.toNat + 1 < memSize ∧
        ((decodeWord op = none ∧ t = s.sample.tick.raise .unknownOpcode (some op) none) ∨
          ∃ i, decodeWord op = some i ∧ exec i s.sample.tick = .next t))) := by
  unfold step stepOnce at h
  split at h
  · next hf => exact .inl ⟨by rw [Option.isSome_iff_ne_none] at hf; exact hf, by simpa using h.symm⟩
  · next hf =>
    split at h
    · cases h
    · next hc =>
      split at h
      · cases h
      · next hi =>
        refine .inr ⟨by simpa using hf, by simpa using hc, by simpa using hi, ?_⟩
        unfold executeOne at h
        rw [tick_fetch, sample_fetch] at h
        have hfe := fetch_eq s
        split at hfe
        · next hpc =>
          rw [hfe] at h
          refine .inr ⟨_, hfe, hpc, ?_⟩
          simp only at h
          split at h
          · next hd => exact .inl ⟨hd, by simpa using h.symm⟩
          · next i hd => exact .inr ⟨i, hd, h⟩
        · next hpc =>
          rw [hfe] at h
          exact .inl ⟨Nat.le_of_not_lt hpc, by simpa using h.symm⟩

end Sys2Proof.Machine
end

