-- ==== Sys2Proof/Tests/Slice0.lean ====
section
/-! SUPPORT. Tests. Expected values are those of 95_test_vectors.md, whose vector a test names, or are written out by hand from the
rule it names. The witness theorems show that the hypotheses of the obligations can be met, at boundary values. -/

open Sys2Proof Sys2Proof.Machine

namespace Sys2Proof.Tests

/-! ## Helpers -/

/-- The vectors' start: a reset machine with a word at 0x200, and registers set on top. -/
def at200 (op : Nat) (regs : List (Reg × Byte)) : State :=
  regs.foldl (fun s p => s.setReg p.1 p.2) (State.reset.withFetchWord 16 op)

/-- Something of the state after an answer, if it is a next state. -/
def look {α : Type} (r : Result) (f : State → α) : Option α :=
  match r with
  | .next t => some (f t)
  | .fault _ => none
  | .refused _ => none

/-- The snapshot with the keys of a list down. -/
def keys (ks : List Nat) (last : Option Key) : Input :=
  { keys := ks.foldl (fun m k => m ||| (1#16 <<< k)) 0#16, last := last }

/-- A stack of sixteen entries. -/
def fullStack : List Word := List.replicate 16 0x0202#16

/-- A grid with the listed pixels on. -/
def gridOf (on : List (Nat × Nat)) : List (List Bool) :=
  on.foldl (fun fb p => Display.setPixel fb p.1 p.2 true) (Display.blank Config.standard)

/-- A record of a fault, as the vectors write it. -/
def faultOf (k : Fault) (pc : Word) (op : Option Word) (a : Option Nat) : Option FaultRecord :=
  some { kind := k, atPc := pc, opcode := op, address := a }

/-- A machine whose shift instructions shift `Vy`. -/
def shiftY (s : State) : State := { s with cfg := { s.cfg with shiftSrc := .y } }

/-! ## Well-formedness -/

/-- A sprite of 16 rows has no encoding (30_encoding.md R81: `N` has four bits); one of 15 has. -/
theorem test_wellFormed_drw_rows : Instr.wellFormed (.drw 0x0#4 0x1#4 16) = false ∧
    Instr.wellFormed (.drw 0x0#4 0x1#4 15) = true := by decide

/-! ## Decoding: words written out bit by bit from the formats of 30_encoding.md R82 and the rows of R85 -/

theorem test_decode_cls : decodeTableWord 16 0b0000000011100000 = some (.cls) := by decide

theorem test_decode_ret : decodeTableWord 16 0b0000000011101110 = some (.ret) := by decide

theorem test_decode_jp : decodeTableWord 16 0b0001101010111100 = some (.jp 0xABC#12) := by decide

theorem test_decode_call : decodeTableWord 16 0b0010001000000100 = some (.call 0x204#12) := by decide

theorem test_decode_seImm : decodeTableWord 16 0b0011011001000010 = some (.seImm 0x6#4 0x42#8) := by decide

theorem test_decode_sneImm : decodeTableWord 16 0b0100100110000001 = some (.sneImm 0x9#4 0x81#8) := by decide

theorem test_decode_seReg : decodeTableWord 16 0b0101000100100000 = some (.seReg 0x1#4 0x2#4) := by decide

theorem test_decode_ldImm : decodeTableWord 16 0b0110111110101011 = some (.ldImm 0xF#4 0xAB#8) := by decide

theorem test_decode_addImm : decodeTableWord 16 0b0111001000100000 = some (.addImm 0x2#4 0x20#8) := by decide

theorem test_decode_ldReg : decodeTableWord 16 0b1000001111000000 = some (.ldReg 0x3#4 0xC#4) := by decide

theorem test_decode_orReg : decodeTableWord 16 0b1000001111000001 = some (.orReg 0x3#4 0xC#4) := by decide

theorem test_decode_andReg : decodeTableWord 16 0b1000001111000010 = some (.andReg 0x3#4 0xC#4) := by decide

theorem test_decode_xorReg : decodeTableWord 16 0b1000001111000011 = some (.xorReg 0x3#4 0xC#4) := by decide

theorem test_decode_addReg : decodeTableWord 16 0b1000001111000100 = some (.addReg 0x3#4 0xC#4) := by decide

theorem test_decode_subReg : decodeTableWord 16 0b1000001111000101 = some (.subReg 0x3#4 0xC#4) := by decide

theorem test_decode_shr : decodeTableWord 16 0b1000101010110110 = some (.shr 0xA#4 0xB#4) := by decide

theorem test_decode_subnReg : decodeTableWord 16 0b1000001111000111 = some (.subnReg 0x3#4 0xC#4) := by decide

theorem test_decode_shl : decodeTableWord 16 0b1000101010111110 = some (.shl 0xA#4 0xB#4) := by decide

theorem test_decode_sneReg : decodeTableWord 16 0b1001000100100000 = some (.sneReg 0x1#4 0x2#4) := by decide

theorem test_decode_ldI : decodeTableWord 16 0b1010001011110000 = some (.ldI 0x2F0#12) := by decide

theorem test_decode_jpV0 : decodeTableWord 16 0b1011001100000000 = some (.jpV0 0x300#12) := by decide

theorem test_decode_rnd : decodeTableWord 16 0b1100001100001111 = some (.rnd 0x3#4 0x0F#8) := by decide

theorem test_decode_drw : decodeTableWord 16 0b1101000100101101 = some (.drw 0x1#4 0x2#4 13) := by decide

theorem test_decode_skp : decodeTableWord 16 0b1110000110011110 = some (.skp 0x1#4) := by decide

theorem test_decode_sknp : decodeTableWord 16 0b1110000110100001 = some (.sknp 0x1#4) := by decide

theorem test_decode_ldVxDt : decodeTableWord 16 0b1111001000000111 = some (.ldVxDt 0x2#4) := by decide

theorem test_decode_ldVxK : decodeTableWord 16 0b1111001100001010 = some (.ldVxK 0x3#4) := by decide

theorem test_decode_ldDtVx : decodeTableWord 16 0b1111001000010101 = some (.ldDtVx 0x2#4) := by decide

theorem test_decode_ldStVx : decodeTableWord 16 0b1111100000011000 = some (.ldStVx 0x8#4) := by decide

theorem test_decode_addI : decodeTableWord 16 0b1111000100011110 = some (.addI 0x1#4) := by decide

theorem test_decode_ldF : decodeTableWord 16 0b1111010000101001 = some (.ldF 0x4#4) := by decide

theorem test_decode_ldB : decodeTableWord 16 0b1111100100110011 = some (.ldB 0x9#4) := by decide

theorem test_decode_storeRegs : decodeTableWord 16 0b1111001001010101 = some (.storeRegs 0x2#4) := by decide

theorem test_decode_loadRegs : decodeTableWord 16 0b1111111101100101 = some (.loadRegs 0xF#4) := by decide

/-- V-DEC-1 to V-DEC-8: words outside the map. -/
theorem test_decode_unknown : ([0x0000, 0x00E1, 0x0123, 0x5121, 0x9AB1, 0x800F, 0x8008, 0x800D, 0xE19F, 0xE000, 0xE1A0,
    0xF100, 0xF0FF, 0xF056].all fun w => decodeTableWord 16 w == none) = true := by decide

/-- V-DEC-10, 11, 13, 14: words that look odd but are legal. -/
theorem test_decode_odd_words : decodeTableWord 16 0xD000 = some (.drw 0x0#4 0x0#4 0) ∧
    decodeTableWord 16 0x1000 = some (.jp 0x000#12) ∧ decodeWord 0xF090#16 = none := by decide

/-- Bytes in memory order, the high byte first (20_memory.md R55); one byte is no instruction. -/
theorem test_decode_bytes : decodeBytes [0x12#8, 0x00#8, 0x77#8] = .instr (.jp 0x200#12) [0x77#8] ∧
    decodeBytes [0x00#8, 0x00#8] = .unknown 0x0000#16 ∧ decodeBytes [0x12#8] = .short := by decide

/-! ## One step on the vectors of 95_test_vectors.md -/

/-- V-DRW-11. -/
theorem test_cls :
    look (step { at200 0x00E0 [(0xF#4, 0x01#8)] with fb := gridOf [(1, 1), (31, 63)] }) (fun t => (t.pixel 1 1, t.pixel 31 63, t.reg 0xF#4, t.pc)) =
      some (false, false, 0x01#8, 0x0202#16) := by decide

/-- V-CF-6. -/
theorem test_ret :
    look (step { at200 0x00EE [] with stack := [0x0202#16, 0x0345#16] }) (fun t => (t.pc, t.stack)) =
      some (0x0345#16, [0x0202#16]) := by decide

/-- V-TMR-5, V-CF-7, F1. -/
theorem test_ret_underflow :
    look (step { at200 0x00EE [] with dt := 3#8 }) (fun t => (t.fault, t.pc, t.dt)) =
      some (faultOf .stackUnderflow 0x0200#16 (some 0x00EE#16) none, 0x0200#16, 2#8) := by decide

/-- V-CF-2. -/
theorem test_jp : look (step (at200 0x1ABC [])) (fun t => (t.pc, t.stack)) = some (0x0ABC#16, []) := by decide

/-- S7, V-CF-1. -/
theorem test_jp_self : look (step (at200 0x1200 [])) (fun t => (t.pc, t.fault)) = some (0x0200#16, none) := by decide

/-- V-CF-4. -/
theorem test_call : look (step (at200 0x2204 [])) (fun t => (t.pc, t.stack)) = some (0x0204#16, [0x0202#16]) := by decide

/-- V-CF-5, F5. -/
theorem test_call_overflow :
    look (step { at200 0x2200 [] with stack := fullStack }) (fun t => (t.fault, t.pc, t.stack)) =
      some (faultOf .stackOverflow 0x0200#16 (some 0x2200#16) none, 0x0200#16, fullStack) := by decide

/-- V-CF-9. -/
theorem test_jpV0 :
    look (step (at200 0xBFFF [(0x0#4, 0xFF#8)])) (fun t => (t.pc, t.fault)) =
      some (0x10FE#16, none) := by decide

/-- V-CF-10. -/
theorem test_jpV0_always_V0 : look (step (at200 0xB300 [(0x3#4, 0x55#8)])) (fun t => t.pc) = some 0x0300#16 := by decide

/-- V-CF-20. -/
theorem test_seImm_at_top :
    look (step (((State.reset.setPc 0x0FFE#16).withFetchWord 16 0x3000))) (fun t => (t.pc, t.fault)) =
      some (0x1002#16, none) := by decide

/-- V-CF-12. -/
theorem test_seImm_unequal : look (step (at200 0x3042 [(0x0#4, 0x41#8)])) (fun t => t.pc) = some 0x0202#16 := by decide

/-- V-CF-13. -/
theorem test_sneImm_equal : look (step (at200 0x4042 [(0x0#4, 0x42#8)])) (fun t => t.pc) = some 0x0202#16 := by decide

/-- V-CF-14. -/
theorem test_sneImm_unequal : look (step (at200 0x4042 [(0x0#4, 0x41#8)])) (fun t => t.pc) = some 0x0204#16 := by decide

/-- V-CF-15. -/
theorem test_seReg_equal :
    look (step (at200 0x5120 [(0x1#4, 0x07#8), (0x2#4, 0x07#8)])) (fun t => t.pc) =
      some 0x0204#16 := by decide

/-- V-CF-16. -/
theorem test_seReg_unequal :
    look (step (at200 0x5120 [(0x1#4, 0x07#8), (0x2#4, 0x08#8)])) (fun t => t.pc) =
      some 0x0202#16 := by decide

/-- V-CF-18. -/
theorem test_sneReg_unequal :
    look (step (at200 0x9120 [(0x1#4, 0x07#8), (0x2#4, 0x08#8)])) (fun t => t.pc) =
      some 0x0204#16 := by decide

/-- V-CF-19. -/
theorem test_sneReg_same : look (step (at200 0x9330 [(0x3#4, 0x09#8)])) (fun t => t.pc) = some 0x0202#16 := by decide

/-- V-ALU-1. -/
theorem test_ldImm : look (step (at200 0x6FAB [])) (fun t => (t.reg 0xF#4, t.pc)) = some (0xAB#8, 0x0202#16) := by decide

/-- V-ALU-2. -/
theorem test_addImm_wraps :
    look (step (at200 0x7220 [(0x2#4, 0xF0#8), (0xF#4, 0x07#8)])) (fun t => (t.reg 0x2#4, t.reg 0xF#4)) =
      some (0x10#8, 0x07#8) := by decide

/-- V-ALU-3. -/
theorem test_addImm_VF : look (step (at200 0x7F02 [(0xF#4, 0xFF#8)])) (fun t => t.reg 0xF#4) = some 0x01#8 := by decide

/-- V-ALU-5. -/
theorem test_ldReg :
    look (step (at200 0x8010 [(0x1#4, 0x3C#8)])) (fun t => (t.reg 0x0#4, t.reg 0x1#4)) =
      some (0x3C#8, 0x3C#8) := by decide

/-- V-ALU-6. -/
theorem test_orReg :
    look (step (at200 0x8011 [(0x0#4, 0xF0#8), (0x1#4, 0x0F#8)])) (fun t => t.reg 0x0#4) =
      some 0xFF#8 := by decide

/-- V-ALU-7. -/
theorem test_andReg :
    look (step (at200 0x8012 [(0x0#4, 0xF3#8), (0x1#4, 0x3F#8)])) (fun t => t.reg 0x0#4) =
      some 0x33#8 := by decide

/-- V-ALU-8. -/
theorem test_xorReg :
    look (step (at200 0x8013 [(0x0#4, 0xFF#8), (0x1#4, 0x0F#8)])) (fun t => t.reg 0x0#4) =
      some 0xF0#8 := by decide

/-- V-ALU-12. -/
theorem test_addReg_255 :
    look (step (at200 0x8014 [(0x0#4, 0x80#8), (0x1#4, 0x7F#8), (0xF#4, 0x09#8)])) (fun t => (t.reg 0x0#4, t.reg 0xF#4)) =
      some (0xFF#8, 0x00#8) := by decide

/-- V-ALU-13. -/
theorem test_addReg_carry :
    look (step (at200 0x8014 [(0x0#4, 0xFF#8), (0x1#4, 0xFF#8)])) (fun t => (t.reg 0x0#4, t.reg 0xF#4)) =
      some (0xFE#8, 0x01#8) := by decide

/-- V-ALU-21. -/
theorem test_subReg_borrow :
    look (step (at200 0x8015 [(0x0#4, 0x05#8), (0x1#4, 0x0A#8)])) (fun t => (t.reg 0x0#4, t.reg 0xF#4)) =
      some (0xFB#8, 0x00#8) := by decide

/-- V-ALU-25. -/
theorem test_subReg_VF :
    look (step (at200 0x8F15 [(0xF#4, 0x09#8), (0x1#4, 0x03#8)])) (fun t => t.reg 0xF#4) =
      some 0x01#8 := by decide

/-- V-ALU-27. -/
theorem test_subnReg :
    look (step (at200 0x8017 [(0x0#4, 0x05#8), (0x1#4, 0x0A#8)])) (fun t => (t.reg 0x0#4, t.reg 0xF#4)) =
      some (0x05#8, 0x01#8) := by decide

/-- V-ALU-30. -/
theorem test_subnReg_VF :
    look (step (at200 0x8F17 [(0xF#4, 0x09#8), (0x1#4, 0x03#8)])) (fun t => t.reg 0xF#4) =
      some 0x00#8 := by decide

/-- V-ALU-52. -/
theorem test_shr_X :
    look (step (at200 0x8016 [(0x0#4, 0xAA#8), (0x1#4, 0x05#8)])) (fun t => (t.reg 0x0#4, t.reg 0x1#4, t.reg 0xF#4)) =
      some (0x55#8, 0x05#8, 0x00#8) := by decide

/-- V-ALU-53. -/
theorem test_shr_Y :
    look (step (shiftY (at200 0x8016 [(0x0#4, 0xAA#8), (0x1#4, 0x05#8)]))) (fun t => (t.reg 0x0#4, t.reg 0x1#4, t.reg 0xF#4)) =
      some (0x02#8, 0x05#8, 0x01#8) := by decide

/-- V-ALU-51. -/
theorem test_shl_X_VF : look (step (at200 0x8F0E [(0xF#4, 0x81#8)])) (fun t => t.reg 0xF#4) = some 0x01#8 := by decide

/-- V-ALU-55. -/
theorem test_shl_Y :
    look (step (shiftY (at200 0x801E [(0x0#4, 0xAA#8), (0x1#4, 0x05#8)]))) (fun t => (t.reg 0x0#4, t.reg 0x1#4, t.reg 0xF#4)) =
      some (0x0A#8, 0x05#8, 0x00#8) := by decide

/-- V-ALU-60. -/
theorem test_rnd :
    look (step (State.supplyRandom (at200 0xC30F []) [0xA7#8])) (fun t => (t.reg 0x3#4, t.reg 0xF#4, t.random)) =
      some (0x07#8, 0x00#8, []) := by decide

/-- V-ALU-62. -/
theorem test_rnd_mask_FF :
    look (step (State.supplyRandom (at200 0xC3FF []) [0x5C#8])) (fun t => t.reg 0x3#4) =
      some 0x5C#8 := by decide

/-- V-DRW-8. -/
theorem test_drw_wraps :
    look (step (State.poke { at200 0xD011 [(0x0#4, 0xFF#8)] with i := 0x0300#16 } 0x300 0xFF#8)) (fun t => (([63, 0, 1, 2, 3, 4, 5, 6].map (t.pixel 0)), t.pixel 0 7, t.pixel 0 62, t.reg 0xF#4, t.i)) =
      some ([true, true, true, true, true, true, true, true], false, false, 0x00#8, 0x0300#16) := by decide

/-- V-DRW-7. -/
theorem test_drw_out_of_bounds :
    look (step (State.poke { at200 0xD012 [(0xF#4, 0x07#8)] with i := 0x0FFF#16 } 0xFFF 0xFF#8)) (fun t => (t.fault, t.pixel 0 0, t.reg 0xF#4, t.pc)) =
      some (faultOf .memoryOutOfBounds 0x0200#16 (some 0xD012#16) (some 0x1000), false, 0x07#8, 0x0200#16) := by decide

/-- V-KEY-1. -/
theorem test_skp_pressed :
    look (step { at200 0xE19E [(0x1#4, 0x0A#8)] with input := keys [10] (some 0xA#4) }) (fun t => t.pc) =
      some 0x0204#16 := by decide

/-- V-KEY-3. -/
theorem test_skp_code_1A :
    look (step { at200 0xE19E [(0x1#4, 0x1A#8)] with input := keys [10] (some 0xA#4) }) (fun t => t.pc) =
      some 0x0202#16 := by decide

/-- V-KEY-5. -/
theorem test_sknp_pressed :
    look (step { at200 0xE1A1 [(0x1#4, 0x0A#8)] with input := keys [10] (some 0xA#4) }) (fun t => t.pc) =
      some 0x0202#16 := by decide

/-- V-KEY-6. -/
theorem test_sknp_code_1A :
    look (step { at200 0xE1A1 [(0x1#4, 0x1A#8)] with input := { keys := 0xFFFF#16, last := some 0x0#4 } }) (fun t => t.pc) =
      some 0x0204#16 := by decide

/-- V-TMR-1. -/
theorem test_ldVxDt :
    look (step { at200 0xF207 [] with dt := 5#8 }) (fun t => (t.dt, t.reg 0x2#4)) =
      some (4#8, 4#8) := by decide

/-- V-TMR-2. -/
theorem test_ldVxDt_zero :
    look (step (at200 0xF207 [(0x2#4, 0x09#8)])) (fun t => (t.dt, t.reg 0x2#4)) =
      some (0#8, 0#8) := by decide

/-- V-KEY-7, P8. -/
theorem test_ldVxK_stalls :
    look (step { at200 0xF30A [(0x3#4, 0x55#8)] with dt := 2#8 }) (fun t => (t.pc, t.reg 0x3#4, t.dt)) =
      some (0x0200#16, 0x55#8, 1#8) := by decide

/-- V-KEY-9. -/
theorem test_ldVxK_last :
    look (step { at200 0xF30A [] with input := keys [2, 9] (some 0x9#4) }) (fun t => (t.pc, t.reg 0x3#4)) =
      some (0x0202#16, 0x09#8) := by decide

/-- V-TMR-3. -/
theorem test_ldDtVx :
    look (step { at200 0xF215 [(0x2#4, 0x05#8)] with dt := 9#8 }) (fun t => (t.dt, t.pc)) =
      some (5#8, 0x0202#16) := by decide

/-- V-TMR-4. -/
theorem test_ldStVx :
    look (step { at200 0xF018 [(0x0#4, 0x09#8)] with dt := 1#8 }) (fun t => (t.dt, t.reg 0x0#4, t.pc)) =
      some (0#8, 9#8, 0x0202#16) := by decide

/-- V-ADR-1. -/
theorem test_ldI : look (step (at200 0xA2F0 [])) (fun t => t.i) = some 0x02F0#16 := by decide

/-- V-ADR-3. -/
theorem test_addI_past_memory :
    look (step { at200 0xF11E [(0x1#4, 0x01#8)] with i := 0x0FFF#16 }) (fun t => (t.i, t.fault, t.reg 0xF#4)) =
      some (0x1000#16, none, 0x00#8) := by decide

/-- V-ADR-4. -/
theorem test_addI_wraps :
    look (step { at200 0xF11E [(0x1#4, 0x02#8), (0xF#4, 0x07#8)] with i := 0xFFFF#16 }) (fun t => (t.i, t.reg 0xF#4)) =
      some (0x0001#16, 0x07#8) := by decide

/-- V-ADR-5. -/
theorem test_ldF : look (step (at200 0xF429 [(0x4#4, 0x0A#8)])) (fun t => t.i) = some 0x0032#16 := by decide

/-- V-ADR-6. -/
theorem test_ldF_FF : look (step (at200 0xF429 [(0x4#4, 0xFF#8)])) (fun t => t.i) = some 0x04FB#16 := by decide

/-- V-MEM-6b. -/
theorem test_ldB_last_place :
    look (step { at200 0xF033 [(0x0#4, 0x7B#8)] with i := 0x0FFD#16 }) (fun t => ([0xFFD, 0xFFE, 0xFFF].map t.byteAt, t.fault)) =
      some ([0x01#8, 0x02#8, 0x03#8], none) := by decide

/-- V-MEM-6c. -/
theorem test_ldB_out_of_bounds :
    look (step { at200 0xF033 [(0x0#4, 0x7B#8)] with i := 0x0FFE#16 }) (fun t => (t.fault, t.byteAt 0xFFE, t.byteAt 0xFFF)) =
      some (faultOf .memoryOutOfBounds 0x0200#16 (some 0xF033#16) (some 0x1000), 0x00#8, 0x00#8) := by decide

/-- V-MEM-7. -/
theorem test_storeRegs :
    look (step { at200 0xF255 [(0x0#4, 0x11#8), (0x1#4, 0x22#8), (0x2#4, 0x33#8), (0x3#4, 0x44#8)] with i := 0x0300#16 }) (fun t => ([0x300, 0x301, 0x302, 0x303].map t.byteAt, t.i)) =
      some ([0x11#8, 0x22#8, 0x33#8, 0x00#8], 0x0303#16) := by decide

/-- V-MEM-11. -/
theorem test_storeRegs_no_wrap :
    look (step { at200 0xF155 [(0x0#4, 0x01#8), (0x1#4, 0x02#8)] with i := 0xFFFF#16 }) (fun t => (t.fault, t.byteAt 0x000, t.byteAt 0x001, t.i)) =
      some (faultOf .memoryOutOfBounds 0x0200#16 (some 0xF155#16) (some 0xFFFF), 0xF0#8, 0x90#8, 0xFFFF#16) := by decide

/-- V-MEM-12. -/
theorem test_loadRegs :
    look (step (State.pokes { at200 0xF265 [(0x3#4, 0x77#8)] with i := 0x0300#16 } 0x300 [0x02#8, 0x05#8, 0x04#8, 0x09#8])) (fun t => (t.reg 0x0#4, t.reg 0x1#4, t.reg 0x2#4, t.reg 0x3#4, t.i)) =
      some (0x02#8, 0x05#8, 0x04#8, 0x77#8, 0x0303#16) := by decide

/-- V-MEM-14. -/
theorem test_loadRegs_out_of_bounds :
    look (step (State.poke { at200 0xF165 [(0x0#4, 0x07#8), (0x1#4, 0x08#8)] with i := 0x0FFF#16 } 0xFFF 0x55#8)) (fun t => (t.fault, t.reg 0x0#4, t.reg 0x1#4, t.i)) =
      some (faultOf .memoryOutOfBounds 0x0200#16 (some 0xF165#16) (some 0x1000), 0x07#8, 0x08#8, 0x0FFF#16) := by decide

/-- F4, V-CF-3: its second step. -/
theorem test_fetch_out_of_bounds :
    look (step (State.reset.setPc 0x0FFF#16)) (fun t => (t.fault, t.pc)) =
      some (faultOf .memoryOutOfBounds 0x0FFF#16 none (some 0x1000), 0x0FFF#16) := by decide

/-- F2. -/
theorem test_unknown_word :
    look (step State.reset) (fun t => (t.fault, t.pc)) =
      some (faultOf .unknownOpcode 0x0200#16 (some 0x0000#16) none, 0x0200#16) := by decide

/-- The mask 00 gives 00 whatever the free byte is (V-ALU-61). -/
theorem test_rnd_free_byte : look (step (at200 0xC300 [(0x3#4, 0x55#8)])) (fun t => t.reg 0x3#4) = some 0x00#8 := by
  show some (Config.randomByte 0 &&& 0x00#8) = some 0x00#8
  simp
/-! ## Witnesses: the hypotheses of the obligations can be met, clause by clause -/

theorem test_witness_DecodeOfEncode : Instr.wellFormed (.drw 0xF#4 0xF#4 15) = true ∧ Instr.wellFormed .cls = true := by decide

theorem test_witness_EncodeOfDecode : decodeWord 0xDFFF#16 = some (.drw 0xF#4 0xF#4 15) := by decide

/-- Each group of R86, with the nearest word outside where the group has one. -/
theorem test_witness_DecodeLegalWordsExactly :
    (([0x1000#16, 0xDFFF#16, 0x00E0#16, 0x00EE#16, 0x5FF0#16, 0x9FF0#16, 0x8FF7#16, 0x8FFE#16, 0xEF9E#16, 0xEFA1#16,
      0xFF07#16, 0xFF65#16].all fun op => (decodeWord op).isSome) = true) ∧
    (([0x00E1#16, 0x00EF#16, 0x5FF1#16, 0x9FFF#16, 0x8FF8#16, 0x8FFF#16, 0xEF9F#16, 0xEFA2#16, 0xFF06#16,
      0xFF66#16].all fun op => (decodeWord op).isNone) = true) := by decide

theorem test_witness_DecodeSelectsMatchingRow : (0xF00F#16, 0x9000#16) ∈ opcodeMap ∧
    0x9AB0#16 &&& 0xF00F#16 = 0x9000#16 ∧ decodeWord 0x9AB0#16 = some (.sneReg 0xA#4 0xB#4) ∧
    opcodeRow (.sneReg 0xA#4 0xB#4) = (0xF00F#16, 0x9000#16) := by decide

/-- The highest `pc` from which a word can be fetched, with no snapshot pending and with one. -/
theorem test_witness_StepRunsDecodedInstruction : ∀ s ∈ [(State.reset.setPc 0x0FFE#16).withFetchWord 16 0x1FFE,
      ((State.reset.setPc 0x0FFE#16).withFetchWord 16 0x1FFE).supplyInputs [keys [7] (some 0x7#4)]],
    s.fault = none ∧ s.cfg.wf = true ∧ s.sample.input.wf = true ∧ s.pc.toNat + 1 < memSize ∧
    decodeWord (wordOfBytes (s.byteAt s.pc.toNat) (s.byteAt (s.pc.toNat + 1))) = some (.jp 0xFFE#12) := by decide

theorem test_witness_HaltedMachineStands : ∃ (s : State) (f : FaultRecord), s.fault = some f :=
  ⟨State.reset.raise .unknownOpcode (some 0x0000#16) none, _, rfl⟩

/-- `pc` at 0xFFF, at 0x1000 and at its top. -/
theorem test_witness_FetchOutOfBoundsFaults : ∀ s ∈ [State.reset.setPc 0x0FFF#16, State.reset.setPc 0x1000#16,
      State.reset.setPc 0xFFFF#16],
    s.fault = none ∧ s.cfg.wf = true ∧ s.sample.input.wf = true ∧ memSize ≤ s.pc.toNat + 1 := by decide

theorem test_witness_UnknownWordFaults : State.reset.fault = none ∧ State.reset.cfg.wf = true ∧
    State.reset.sample.input.wf = true ∧ State.reset.pc.toNat + 1 < memSize ∧
    decodeWord (wordOfBytes (State.reset.byteAt State.reset.pc.toNat) (State.reset.byteAt (State.reset.pc.toNat + 1))) =
      none := by decide

/-- Snapshots that break a duty: a last key that is up, a key down with no last key. Snapshots that keep them: none down, two down. -/
theorem test_witness_BrokenSnapshotRefused :
    Input.wf (keys [] (some 0x0#4)) = false ∧ Input.wf (keys [2] (some 0x3#4)) = false ∧ Input.wf (keys [15] none) = false ∧
    Input.wf (keys [] none) = true ∧ Input.wf (keys [2, 15] (some 0xF#4)) = true ∧
    State.reset.fault = none ∧ State.reset.cfg.wf = true ∧
    (State.reset.supplyInputs [keys [15] none]).sample.input.wf = false := by decide

theorem test_witness_StepAlwaysAnswersNext : State.reset.cfg.wf = true ∧ State.reset.sample.input.wf = true := by decide

theorem test_witness_FaultsArePrecise : ∃ (t : State) (f : FaultRecord), step State.reset = .next t ∧
    State.reset.fault = none ∧ t.fault = some f := ⟨_, _, rfl, rfl, rfl⟩

/-- The three faulting forms at their boundary, and the same instructions one step inside it. -/
theorem test_witness_ExecuteFaultsExactly :
    look (exec .ret State.reset) (fun t => t.fault.isSome) = some true ∧
    look (exec .ret (State.reset.setStack [0x0202#16])) (fun t => t.fault.isSome) = some false ∧
    look (exec (.call 0x300#12) (State.reset.setStack fullStack)) (fun t => t.fault.isSome) = some true ∧
    look (exec (.call 0x300#12) (State.reset.setStack fullStack.tail)) (fun t => t.fault.isSome) = some false ∧
    look (exec (.storeRegs 0xF#4) (State.reset.setI 0x0FF1#16)) (fun t => t.fault.isSome) = some true ∧
    look (exec (.storeRegs 0xF#4) (State.reset.setI 0x0FF0#16)) (fun t => t.fault.isSome) = some false ∧
    look (exec (.drw 0x0#4 0x0#4 0) (State.reset.setI 0xFFFF#16)) (fun t => t.fault.isSome) = some false := by decide

/-- The timer at 0, at 255, and set by the instruction. -/
theorem test_witness_TimerTicksEveryStep :
    look (step (at200 0x1200 [])) (fun t => t.dt) = some 0#8 ∧
    look (step ((at200 0x1200 []).setDt 255#8)) (fun t => t.dt) = some 254#8 ∧
    look (step ((at200 0xF015 [(0x0#4, 0xFF#8)]).setDt 1#8)) (fun t => t.dt) = some 255#8 := by decide

/-- The reset state meets the invariant, and a step from it answers next. -/
theorem test_witness_StepKeepsInvariant : State.reset.Inv ∧ (look (step State.reset) fun t => t.pc) = some 0x0200#16 :=
  ⟨⟨by decide, Memory.reset_wf Config.standard, Display.blank_wf Config.standard, fun d _ => Nat.zero_le d,
    ⟨by decide, fun a h => absurd h List.not_mem_nil⟩, fun _ h => nomatch (show none = some _ from h)⟩, by decide⟩

/-- Legal parameters: the default ones, and the smallest grid with an unbounded stack and no font. -/
theorem test_witness_ResetMeetsInvariant : Config.standard.wf = true ∧
    Config.wf { Config.standard with displayW := 1, displayH := 1, stackDepth := none, glyphBytes := 0, fontData := [] } =
      true := by decide

theorem test_witness_StepKeepsParametersAndInput : ∃ t : State,
    step (State.reset.supplyInputs [keys [7] (some 0x7#4)]) = .next t ∧ State.reset.fault = none := ⟨_, rfl, rfl⟩

/-- `VF` changes under a flag writer, a draw that erases, and a load of all sixteen registers. -/
theorem test_witness_FlagRegisterWriters :
    look (exec (.addReg 0x0#4 0x0#4) (State.reset.setReg 0x0#4 0x80#8)) (fun t => t.reg 0xF#4) = some 0x01#8 ∧
    look (exec (.drw 0x0#4 0x0#4 1) (State.reset.setFb (gridOf [(0, 0)]))) (fun t => t.reg 0xF#4) = some 0x01#8 ∧
    look (exec (.loadRegs 0xF#4) (State.reset.poke 0x00F 0x77#8)) (fun t => t.reg 0xF#4) = some 0x77#8 ∧
    State.reset.reg 0xF#4 = 0x00#8 := by decide

/-- Each way `pc` moves. -/
theorem test_witness_ProgramCounterAdvance :
    look (exec .cls State.reset) (fun t => (t.fault, t.pc)) = some (none, 0x0202#16) ∧
    look (exec (.jp 0xFFF#12) State.reset) (fun t => (t.fault, t.pc)) = some (none, 0x0FFF#16) ∧
    look (exec (.seImm 0x0#4 0x00#8) State.reset) (fun t => (t.fault, t.pc)) = some (none, 0x0204#16) ∧
    look (exec (.ldVxK 0x0#4) State.reset) (fun t => (t.fault, t.pc)) = some (none, 0x0200#16) ∧
    State.reset.fault = none ∧ State.reset.input.last = none := by decide

/-- Each part of the state changes under one of its writers. -/
theorem test_witness_WritersOfEachPart :
    look (exec (.call 0x300#12) State.reset) (fun t => t.stack) ≠ some State.reset.stack ∧
    look (exec .cls (State.reset.setFb (gridOf [(31, 63)]))) (fun t => t.pixel 31 63) = some false ∧
    look (exec (.ldB 0x0#4) State.reset) (fun t => t.mem) ≠ some State.reset.mem ∧
    look (exec (.ldI 0x001#12) State.reset) (fun t => t.i) ≠ some State.reset.i ∧
    look (exec (.ldDtVx 0x0#4) (State.reset.setDt 1#8)) (fun t => t.dt) = some 0#8 ∧
    look (exec (.rnd 0x0#4 0xFF#8) State.reset) (fun t => t.draws) ≠ some State.reset.draws := by decide

/-- Destinations other than `VF`, and `VF`, where the sum is lost (V-ALU-16). -/
theorem test_witness_AddWithCarryResult : (0x0#4 : Reg) ≠ 0xF#4 ∧
    look (exec (.addReg 0xF#4 0x1#4) ((State.reset.setReg 0xF#4 0x10#8).setReg 0x1#4 0x20#8)) (fun t => t.reg 0xF#4) =
      some 0x00#8 := by decide

theorem test_witness_SubtractResults : (0xE#4 : Reg) ≠ 0xF#4 ∧
    look (exec (.subReg 0xE#4 0xF#4) (State.reset.setReg 0xF#4 0xFF#8)) (fun t => (t.reg 0xE#4, t.reg 0xF#4)) =
      some (0x01#8, 0x00#8) := by decide

/-- Both settings of SHIFT_SRC. -/
theorem test_witness_ShiftResults : State.reset.cfg.shiftSrc = .x ∧ (shiftY State.reset).cfg.shiftSrc = .y ∧
    (0x0#4 : Reg) ≠ 0xF#4 := by decide

/-- A supplied byte, no supplied byte, a bit the mask clears, and the two extreme masks. -/
theorem test_witness_RandomResult : (State.reset.supplyRandom [0xA7#8, 0x01#8]).random = 0xA7#8 :: [0x01#8] ∧ State.reset.random = [] ∧
    (0x0F#8 : Byte).getLsbD 4 = false ∧ (0x0F#8 : Byte).getLsbD 3 = true ∧
    look (exec (.rnd 0x3#4 0x00#8) (State.reset.supplyRandom [0xFF#8])) (fun t => t.reg 0x3#4) = some 0x00#8 ∧
    look (exec (.rnd 0x3#4 0xFF#8) (State.reset.supplyRandom [0x5C#8])) (fun t => t.reg 0x3#4) = some 0x5C#8 := by decide

/-- Room for one more entry, no room, and an unbounded stack. -/
theorem test_witness_CallResult :
    (State.reset.setStack fullStack.tail).cfg.stackDepth = some 16 ∧ (State.reset.setStack fullStack.tail).stack.length < 16 ∧
    (State.reset.setStack fullStack).cfg.stackDepth = some 16 ∧ 16 ≤ (State.reset.setStack fullStack).stack.length ∧
    (State.resetWith { Config.standard with stackDepth := none }).cfg.stackDepth = none := by decide

theorem test_witness_ReturnResult : ([0x0202#16, 0x0345#16] : List Word) = [0x0202#16] ++ [0x0345#16] ∧
    State.reset.stack = [] := by decide

/-- A pressed key, a released one, and a value past the last key. -/
theorem test_witness_KeySkipResults : State.keyPressed { State.reset with input := keys [15] (some 0xF#4) } 0x0F#8 = true ∧
    State.keyPressed { State.reset with input := keys [15] (some 0xF#4) } 0x0E#8 = false ∧
    State.keyPressed { State.reset with input := { keys := 0xFFFF#16, last := some 0x0#4 } } 0x10#8 = false := by decide

theorem test_witness_KeyWaitResult : State.reset.input.last = none ∧ (keys [0] (some 0x0#4)).last = some 0x0#4 ∧
    (keys [15] (some 0xF#4)).last = some 0xF#4 := by decide

/-- A sprite that ends at the last byte of memory; and no rows, where `I` may be anything. -/
theorem test_witness_DrawSpriteResult : State.reset.cfg.wf = true ∧ Display.wf State.reset.cfg State.reset.fb = true ∧
    15 ≤ 15 ∧ (State.reset.setI 0x0FF1#16).i.toNat + 15 ≤ memSize ∧
    look (exec (.drw 0x0#4 0x0#4 0) (State.reset.setI 0xFFFF#16)) (fun t => (t.fault, t.pc)) = some (none, 0x0202#16) := by
  decide

/-- V-DRW-3 and V-DRW-4: both draws collide; on the smallest grid of the statement, and on one row of it. -/
theorem test_witness_DrawTwiceRestoresDisplay : Display.wf { Config.standard with displayW := 8, displayH := 1 }
      [[true, false, false, false, false, false, false, false]] = true ∧
    (8 ≤ 8 ∧ ([0xC0#8] : List Byte).length ≤ 1 ∧ 1 ≤ 1) ∧
    Display.draw { Config.standard with displayW := 8, displayH := 1 } [0xC0#8] 0 0
      [[true, false, false, false, false, false, false, false]] =
      ([[false, true, false, false, false, false, false, false]], true) ∧
    Display.draw { Config.standard with displayW := 8, displayH := 1 } [0xC0#8] 0 0
      [[false, true, false, false, false, false, false, false]] =
      ([[true, false, false, false, false, false, false, false]], true) := by decide

/-- V-DRW-4b: both pixels on before, so the second draw does not collide. -/
theorem test_witness_DrawTwice_no_second_collision :
    Display.draw { Config.standard with displayW := 8, displayH := 1 } [0xC0#8] 0 0
      [[true, true, false, false, false, false, false, false]] =
      ([[false, false, false, false, false, false, false, false]], true) ∧
    Display.draw { Config.standard with displayW := 8, displayH := 1 } [0xC0#8] 0 0
      [[false, false, false, false, false, false, false, false]] =
      ([[true, true, false, false, false, false, false, false]], false) := by decide

/-- 42_display.md R146: on a grid narrower than 8 one draw can meet a pixel it lit itself. -/
theorem test_draw_narrow_grid : Display.draw { Config.standard with displayW := 4, displayH := 1 } [0x88#8] 0 0
    [[false, false, false, false]] = ([[false, false, false, false]], true) := by decide

theorem test_witness_DecimalStoreResult : (State.reset.setI 0x0FFD#16).i.toNat + 2 < memSize := by decide

theorem test_witness_BlockStoreResult : (State.reset.setI 0x0FF0#16).i.toNat + (0xF#4 : Reg).toNat < memSize ∧
    (State.reset.setI 0x0FFF#16).i.toNat + (0x0#4 : Reg).toNat < memSize ∧ (0xF#4 : Reg).toNat ≤ (0xF#4 : Reg).toNat := by
  decide

/-- V-MEM-9, then the same bytes loaded back. -/
theorem test_witness_BlockLoadResult : (State.reset.setI 0x0FF0#16).i.toNat + (0xF#4 : Reg).toNat < memSize ∧
    look (exec (.loadRegs 0xF#4) ((State.reset.setI 0x0FF0#16).poke 0xFFF 0xAF#8)) (fun t => (t.reg 0xF#4, t.i)) =
      some (0xAF#8, 0x1000#16) := by decide

/-- One byte past the end of memory, and the highest `I`. -/
theorem test_witness_DataOutOfBoundsFaults : dataLength (.storeRegs 0xF#4) ≠ 0 ∧
    memSize < (State.reset.setI 0x0FF1#16).i.toNat + dataLength (.storeRegs 0xF#4) ∧
    dataLength (.drw 0x0#4 0x0#4 1) ≠ 0 ∧ memSize < (State.reset.setI 0xFFFF#16).i.toNat + dataLength (.drw 0x0#4 0x0#4 1) ∧
    dataLength (.ldB 0x0#4) ≠ 0 ∧ memSize < (State.reset.setI 0x0FFE#16).i.toNat + dataLength (.ldB 0x0#4) ∧
    dataLength (.loadRegs 0x0#4) ≠ 0 ∧ memSize < (State.reset.setI 0x1000#16).i.toNat + dataLength (.loadRegs 0x0#4) := by
  decide

/-- The last address of memory and the first past it. -/
theorem test_witness_MemoryReadAfterWrite : memSize ≤ 4096 ∧ 4095 < memSize ∧
    look (.next (State.reset.poke 4095 0x77#8)) (fun t => (t.byteAt 4095, t.byteAt 4094, t.byteAt 0)) =
      some (0x77#8, 0x00#8, 0xF0#8) := by decide

theorem test_witness_RegistersAreIndependent : (0xE#4 : Reg) ≠ 0xF#4 ∧ (0x0#4 : Reg) ≠ 0xF#4 := by decide

theorem test_witness_BlockStoreThenLoad : ∃ s t r : State, s.i.toNat + (0xF#4 : Reg).toNat < memSize ∧
    exec (.storeRegs 0xF#4) s = .next t ∧ r.mem = t.mem ∧ r.cfg = t.cfg ∧ r.i = s.i ∧ r.reg 0x0#4 ≠ s.reg 0x0#4 :=
  ⟨(State.reset.setI 0x0FF0#16).setReg 0x0#4 0xA0#8, _,
    { State.reset with i := 0x0FF0#16, mem := [(0xFF0, 0xA0#8)] }, by decide, rfl, by decide, rfl, rfl, by decide⟩

/-- P6: a block store over the next instruction; and a decimal store that covers its first byte only, just below the last word. -/
theorem test_witness_StoreSeenByNextFetch :
    (∀ s ∈ [{ at200 0xF155 [(0x0#4, 0x12#8), (0x1#4, 0x0A#8)] with i := 0x0202#16 }],
      s.i.toNat + (s.regsUpTo 0x1#4).length ≤ memSize ∧ s.pc.toNat + 3 < memSize ∧ s.fault = none ∧ s.cfg.wf = true ∧
      s.sample.input.wf = true ∧ s.byteAfterStore (s.regsUpTo 0x1#4) 0x202 = 0x12#8 ∧
      s.byteAfterStore (s.regsUpTo 0x1#4) 0x203 = 0x0A#8 ∧ decodeWord 0x120A#16 = some (.jp 0x20A#12)) ∧
    ∀ s ∈ [{ (State.reset.setPc 0x0FFC#16).setReg 0x0#4 0xFE#8 with i := 0x0FFC#16 }],
      s.i.toNat + (decimalDigits (s.reg 0x0#4)).length ≤ memSize ∧ s.pc.toNat + 3 < memSize ∧
      (decimalDigits (s.reg 0x0#4)).map BitVec.toNat = [2, 5, 4] ∧
      s.byteAfterStore (decimalDigits (s.reg 0x0#4)) 0xFFE = 0x04#8 ∧
      s.byteAfterStore (decimalDigits (s.reg 0x0#4)) 0xFFF = 0x00#8 := by decide

theorem test_witness_TerminalStateStands : (at200 0x1200 []).Terminal ∧ (at200 0x1200 []).cfg.wf = true ∧
    (at200 0x1200 []).sample.input.wf = true := ⟨⟨rfl, 0x200#12, rfl, by decide⟩, by decide, by decide⟩

/-- The last glyph byte, the first byte past the glyphs, and the last byte of memory. -/
theorem test_witness_ResetValues : State.reset.byteAt 79 = 0x80#8 ∧ State.reset.byteAt 80 = 0x00#8 ∧
    State.reset.byteAt 4095 = 0x00#8 ∧ State.reset.byteAt 50 = 0xF0#8 := by decide

/-- The longest image that fits, and one byte more. -/
theorem test_witness_LoadPlacesImage : (∃ image : List Byte, image.length = 3584) ∧ ∃ image : List Byte, image.length = 3585 :=
  ⟨⟨_, List.length_replicate (a := 0x00#8)⟩, _, List.length_replicate (a := 0x00#8)⟩

/-- An image is placed from 0x200 up (P2's first words). -/
theorem test_load : look (State.load Config.standard [0x60#8, 0x03#8, 0x61#8]) (fun t => [0x1FF, 0x200, 0x201, 0x202, 0x203].map t.byteAt) =
    some [0x00#8, 0x60#8, 0x03#8, 0x61#8, 0x00#8] := by decide

/-- Each move of the host answers a next state on the machine with S7's image loaded. -/
theorem test_witness_HostMovesAreConfined :
    ∀ m ∈ [HostMove.setInput (keys [15] (some 0xF#4)), .supplyRandom [0xA7#8], .benchSetTimer 255#8, .step],
      (look (State.session Config.standard [0x12#8, 0x00#8] [m]) fun t => t.pc) = some 0x0200#16 := by decide

/-- The timer set to 5 by a test bench, then one step (S9's first). -/
theorem test_witness_SessionsKeepInvariant : Config.standard.wf = true ∧
    (look (State.session Config.standard [0x12#8, 0x00#8] [.benchSetTimer 5#8, .step]) fun t => (t.pc, t.dt, t.fault)) =
      some (0x0200#16, 4#8, none) := by decide

theorem test_witness_FlatFramebuffer : Display.wf State.reset.cfg State.reset.fb = true ∧
    31 < State.reset.cfg.displayH ∧ 63 < State.reset.cfg.displayW := by decide

end Sys2Proof.Tests
end

section
/-! PROOFS. The checked byte accesses of 20_memory.md: what `State.memRead` and `State.memWrite` answer on each side of
`MEM_SIZE`, and what a store of one byte leaves unchanged. -/

namespace Sys2Proof.Machine

variable (s : State)

theorem memRead_of_lt {a : Nat} (h : a < memSize) : s.memRead a = .ok (s.byteAt a) := if_neg (Nat.not_le_of_lt h)

theorem memRead_of_ge {a : Nat} (h : memSize ≤ a) : s.memRead a = .error a := if_pos h

theorem memWrite_of_lt {a : Nat} (v : Byte) (h : a < memSize) : s.memWrite a v = .ok (s.poke a v) :=
  if_neg (Nat.not_le_of_lt h)

theorem memWrite_of_ge {a : Nat} (v : Byte) (h : memSize ≤ a) : s.memWrite a v = .error a := if_pos h

/-- Another address reads as before a store, out of bounds addresses included. -/
theorem memRead_poke_of_ne {a b : Nat} (v : Byte) (hb : b ≠ a) : (s.poke a v).memRead b = s.memRead b := by
  rcases Nat.lt_or_ge b memSize with hlt | hge
  · rw [memRead_of_lt _ hlt, memRead_of_lt _ hlt, poke_byteAt, if_neg hb]
  · rw [memRead_of_ge _ hge, memRead_of_ge _ hge]

theorem memKept_poke (a : Nat) (v : Byte) : MemKept a 1 s (s.poke a v) := by
  intro b hb
  rw [poke_byteAt, if_neg (by omega)]

/-- The frame of a store of one byte: no register, no other byte and no other part of the state changes (20_memory.md R53). -/
theorem onlyChanges_poke (a : Nat) (v : Byte) : OnlyChanges [] a 1 [] s (s.poke a v) :=
  ⟨fun q _ => poke_reg s a v q, memKept_poke s a v, by simp⟩

/-- Settles O51: by the side of `MEM_SIZE` the address is on; below it the state after the write is that of the unchecked store,
whose read-back is `poke_byteAt` and whose frame is `onlyChanges_poke`. -/
theorem memoryReadAfterWrite : Obligations.MemoryReadAfterWrite := by
  intro s a v
  constructor
  · intro hge
    exact ⟨memRead_of_ge s hge, memWrite_of_ge s v hge⟩
  · intro hlt
    have hback : (s.poke a v).memRead a = .ok v := by rw [memRead_of_lt _ hlt, poke_byteAt, if_pos rfl]
    exact ⟨memRead_of_lt s hlt, s.poke a v, memWrite_of_lt s v hlt, hback,
      fun _ hb => memRead_poke_of_ne s v hb, poke_pc s a v, onlyChanges_poke s a v⟩

end Sys2Proof.Machine
end

section
/-! PROOFS. The decoder, group by group (30_encoding.md R86), and that it and the encoder are inverse to each other (R93). -/

namespace Sys2Proof

/-! ## An equation per group of `decodeWord` (R86) -/

section Groups

variable {op : Word}

theorem decodeWord_group0 (h : fieldG op = 0x0#4) : decodeWord op = decodeGroup0 op := by simp [decodeWord, h]
theorem decodeWord_group1 (h : fieldG op = 0x1#4) : decodeWord op = some (.jp (fieldNNN op)) := by simp [decodeWord, h]
theorem decodeWord_group2 (h : fieldG op = 0x2#4) : decodeWord op = some (.call (fieldNNN op)) := by simp [decodeWord, h]
theorem decodeWord_group3 (h : fieldG op = 0x3#4) : decodeWord op = some (.seImm (fieldX op) (fieldNN op)) := by
  simp [decodeWord, h]
theorem decodeWord_group4 (h : fieldG op = 0x4#4) : decodeWord op = some (.sneImm (fieldX op) (fieldNN op)) := by
  simp [decodeWord, h]
theorem decodeWord_group5 (h : fieldG op = 0x5#4) :
    decodeWord op = if fieldN op = 0x0#4 then some (.seReg (fieldX op) (fieldY op)) else none := by simp [decodeWord, h]
theorem decodeWord_group6 (h : fieldG op = 0x6#4) : decodeWord op = some (.ldImm (fieldX op) (fieldNN op)) := by
  simp [decodeWord, h]
theorem decodeWord_group7 (h : fieldG op = 0x7#4) : decodeWord op = some (.addImm (fieldX op) (fieldNN op)) := by
  simp [decodeWord, h]
theorem decodeWord_group8 (h : fieldG op = 0x8#4) :
    decodeWord op = decodeGroup8 (fieldX op) (fieldY op) (fieldN op) := by simp [decodeWord, h]
theorem decodeWord_group9 (h : fieldG op = 0x9#4) :
    decodeWord op = if fieldN op = 0x0#4 then some (.sneReg (fieldX op) (fieldY op)) else none := by simp [decodeWord, h]
theorem decodeWord_groupA (h : fieldG op = 0xA#4) : decodeWord op = some (.ldI (fieldNNN op)) := by simp [decodeWord, h]
theorem decodeWord_groupB (h : fieldG op = 0xB#4) : decodeWord op = some (.jpV0 (fieldNNN op)) := by simp [decodeWord, h]
theorem decodeWord_groupC (h : fieldG op = 0xC#4) : decodeWord op = some (.rnd (fieldX op) (fieldNN op)) := by
  simp [decodeWord, h]
theorem decodeWord_groupD (h : fieldG op = 0xD#4) :
    decodeWord op = some (.drw (fieldX op) (fieldY op) (fieldN op).toNat) := by simp [decodeWord, h]
theorem decodeWord_groupE (h : fieldG op = 0xE#4) : decodeWord op = decodeGroupE (fieldX op) (fieldNN op) := by
  simp [decodeWord, h]
theorem decodeWord_groupF (h : fieldG op = 0xF#4) : decodeWord op = decodeGroupF (fieldX op) (fieldNN op) := by
  simp [decodeWord, h]

end Groups

theorem fieldG_cases (op : Word) :
    fieldG op = 0x0#4 ∨ fieldG op = 0x1#4 ∨ fieldG op = 0x2#4 ∨ fieldG op = 0x3#4 ∨
    fieldG op = 0x4#4 ∨ fieldG op = 0x5#4 ∨ fieldG op = 0x6#4 ∨ fieldG op = 0x7#4 ∨
    fieldG op = 0x8#4 ∨ fieldG op = 0x9#4 ∨ fieldG op = 0xA#4 ∨ fieldG op = 0xB#4 ∨
    fieldG op = 0xC#4 ∨ fieldG op = 0xD#4 ∨ fieldG op = 0xE#4 ∨ fieldG op = 0xF#4 := by
  generalize fieldG op = g
  revert g
  decide

/-! ## The decoder after the encoder -/

/-- By the format of the instruction: the group of the packed word selects the decoder's equation, and the operands are the
fields it packed. -/
theorem decodeWord_encode {i : Instr} (h : i.wellFormed = true) : decodeWord (encode i) = some i := by
  cases i with
  | cls | ret => decide
  | jp _ => simp [encode, decodeWord_group1]
  | call _ => simp [encode, decodeWord_group2]
  | seImm _ _ => simp [encode, decodeWord_group3]
  | sneImm _ _ => simp [encode, decodeWord_group4]
  | seReg _ _ => simp [encode, decodeWord_group5]
  | ldImm _ _ => simp [encode, decodeWord_group6]
  | addImm _ _ => simp [encode, decodeWord_group7]
  | ldReg _ _ | orReg _ _ | andReg _ _ | xorReg _ _ | addReg _ _ | subReg _ _ | shr _ _ | subnReg _ _ | shl _ _ =>
    simp [encode, decodeWord_group8, decodeGroup8]
  | sneReg _ _ => simp [encode, decodeWord_group9]
  | ldI _ => simp [encode, decodeWord_groupA]
  | jpV0 _ => simp [encode, decodeWord_groupB]
  | rnd _ _ => simp [encode, decodeWord_groupC]
  | drw _ _ n =>
    have hn : n ≤ 15 := by simpa [Instr.wellFormed] using h
    simp [encode, decodeWord_groupD, Nat.mod_eq_of_lt (show n < 16 by omega)]
  | skp _ | sknp _ => simp [encode, decodeWord_groupE, decodeGroupE]
  | ldVxDt _ | ldVxK _ | ldDtVx _ | ldStVx _ | addI _ | ldF _ | ldB _ | storeRegs _ | loadRegs _ =>
    simp [encode, decodeWord_groupF, decodeGroupF]

/-- The first two bytes are decoded as their word and the bytes after them are left. -/
theorem decodeBytes_of_decodeWord {hi lo : Byte} {i : Instr} (rest : List Byte)
    (h : decodeWord (wordOfBytes hi lo) = some i) : decodeBytes (hi :: lo :: rest) = .instr i rest := by
  simp [decodeBytes, h]

/-- Settles O1: the word by `decodeWord_encode`, the bytes because the two bytes of a word make it again. -/
theorem decodeOfEncode : Obligations.DecodeOfEncode := by
  intro i rest hwf
  have hword := decodeWord_encode hwf
  exact ⟨hword, decodeBytes_of_decodeWord rest (by rw [wordOfBytes_bytes, hword])⟩

/-! ## The encoder after the decoder -/

section Repack

variable {op : Word} {g : BitVec 4}

theorem packAddr_of_group (hg : fieldG op = g) : packAddr g (fieldNNN op) = op := hg ▸ packAddr_fields op

theorem packImm_of_group (hg : fieldG op = g) : packImm g (fieldX op) (fieldNN op) = op := hg ▸ packImm_fields op

theorem packNibbles_of_group (hg : fieldG op = g) : packNibbles g (fieldX op) (fieldY op) (fieldN op) = op :=
  hg ▸ packNibbles_fields op

end Repack

theorem encode_of_decodeGroup0 {op : Word} {i : Instr} (h : decodeGroup0 op = some i) :
    encode i = op ∧ i.wellFormed = true := by
  unfold decodeGroup0 at h
  split_ifs at h <;> cases h <;> exact ⟨by subst_vars; rfl, rfl⟩

theorem encode_of_decodeGroup8 {x y : Reg} {n : BitVec 4} {i : Instr} (h : decodeGroup8 x y n = some i) :
    encode i = packNibbles 0x8#4 x y n ∧ i.wellFormed = true := by
  have hn : BitVec.ofNat 4 n.toNat = n := by simp
  unfold decodeGroup8 at h
  split at h <;> cases h <;> exact ⟨by rw [← hn, ‹n.toNat = _›]; rfl, rfl⟩

theorem encode_of_decodeGroupE {x : Reg} {nn : Byte} {i : Instr} (h : decodeGroupE x nn = some i) :
    encode i = packImm 0xE#4 x nn ∧ i.wellFormed = true := by
  unfold decodeGroupE at h
  split_ifs at h <;> cases h <;> exact ⟨by subst_vars; rfl, rfl⟩

theorem encode_of_decodeGroupF {x : Reg} {nn : Byte} {i : Instr} (h : decodeGroupF x nn = some i) :
    encode i = packImm 0xF#4 x nn ∧ i.wellFormed = true := by
  unfold decodeGroupF at h
  split_ifs at h <;> cases h <;> exact ⟨by subst_vars; rfl, rfl⟩

/-- Groups 5 and 9, whose one instruction has `N` = 0. -/
theorem encode_of_decode_regReg {op : Word} {g : BitVec 4} {f : Reg → Reg → Instr} {i : Instr} (hg : fieldG op = g)
    (hf : ∀ x y, encode (f x y) = packNibbles g x y 0x0#4 ∧ (f x y).wellFormed = true)
    (h : (if fieldN op = 0x0#4 then some (f (fieldX op) (fieldY op)) else none) = some i) :
    encode i = op ∧ i.wellFormed = true := by
  split_ifs at h with hn
  cases h
  have hop : packNibbles g (fieldX op) (fieldY op) 0x0#4 = op := hn ▸ packNibbles_of_group hg
  obtain ⟨henc, hwf⟩ := hf (fieldX op) (fieldY op)
  exact ⟨henc.trans hop, hwf⟩

/-- By the group of the word: the instruction holds the fields its format uses, and those and the group make the word again. -/
theorem encode_of_decodeWord {op : Word} {i : Instr} (h : decodeWord op = some i) :
    encode i = op ∧ i.wellFormed = true := by
  rcases fieldG_cases op with hg | hg | hg | hg | hg | hg | hg | hg | hg | hg | hg | hg | hg | hg | hg | hg
  · exact encode_of_decodeGroup0 (decodeWord_group0 hg ▸ h)
  · cases (decodeWord_group1 hg).symm.trans h; exact ⟨packAddr_of_group hg, rfl⟩
  · cases (decodeWord_group2 hg).symm.trans h; exact ⟨packAddr_of_group hg, rfl⟩
  · cases (decodeWord_group3 hg).symm.trans h; exact ⟨packImm_of_group hg, rfl⟩
  · cases (decodeWord_group4 hg).symm.trans h; exact ⟨packImm_of_group hg, rfl⟩
  · exact encode_of_decode_regReg hg (fun _ _ => ⟨rfl, rfl⟩) ((decodeWord_group5 hg).symm.trans h)
  · cases (decodeWord_group6 hg).symm.trans h; exact ⟨packImm_of_group hg, rfl⟩
  · cases (decodeWord_group7 hg).symm.trans h; exact ⟨packImm_of_group hg, rfl⟩
  · exact packNibbles_of_group hg ▸ encode_of_decodeGroup8 ((decodeWord_group8 hg).symm.trans h)
  · exact encode_of_decode_regReg hg (fun _ _ => ⟨rfl, rfl⟩) ((decodeWord_group9 hg).symm.trans h)
  · cases (decodeWord_groupA hg).symm.trans h; exact ⟨packAddr_of_group hg, rfl⟩
  · cases (decodeWord_groupB hg).symm.trans h; exact ⟨packAddr_of_group hg, rfl⟩
  · cases (decodeWord_groupC hg).symm.trans h; exact ⟨packImm_of_group hg, rfl⟩
  · cases (decodeWord_groupD hg).symm.trans h
    have hn := (fieldN op).isLt
    exact ⟨by simpa [encode] using packNibbles_of_group hg, by simp [Instr.wellFormed]; omega⟩
  · exact packImm_of_group hg ▸ encode_of_decodeGroupE ((decodeWord_groupE hg).symm.trans h)
  · exact packImm_of_group hg ▸ encode_of_decodeGroupF ((decodeWord_groupF hg).symm.trans h)

/-- Settles O2, by the group of the word. -/
theorem encodeOfDecode : Obligations.EncodeOfDecode := fun _ _ => encode_of_decodeWord

/-! ## The rows (R85) -/

section Rows

open Laws.OpcodeRow

/-- The law of each instruction, collected. -/
theorem encode_matches_opcodeRow : ∀ i : Instr, Statement i
  | .cls => cls | .ret => ret | .jp _ => jp _ | .call _ => call _
  | .seImm _ _ => seImm _ _ | .sneImm _ _ => sneImm _ _ | .seReg _ _ => seReg _ _ | .sneReg _ _ => sneReg _ _
  | .ldImm _ _ => ldImm _ _ | .addImm _ _ => addImm _ _ | .ldReg _ _ => ldReg _ _
  | .orReg _ _ => orReg _ _ | .andReg _ _ => andReg _ _ | .xorReg _ _ => xorReg _ _
  | .addReg _ _ => addReg _ _ | .subReg _ _ => subReg _ _ | .subnReg _ _ => subnReg _ _
  | .shr _ _ => shr _ _ | .shl _ _ => shl _ _ | .ldI _ => ldI _ | .jpV0 _ => jpV0 _
  | .rnd _ _ => rnd _ _ | .drw _ _ _ => drw _ _ _ | .skp _ => skp _ | .sknp _ => sknp _
  | .ldVxDt _ => ldVxDt _ | .ldVxK _ => ldVxK _ | .ldDtVx _ => ldDtVx _ | .ldStVx _ => ldStVx _
  | .addI _ => addI _ | .ldF _ => ldF _ | .ldB _ => ldB _ | .storeRegs _ => storeRegs _ | .loadRegs _ => loadRegs _

end Rows

/-- A word meets the mask and match of the row of the instruction it decodes to, since it is that instruction's encoding. -/
theorem match_of_decodeWord {op : Word} {i : Instr} (h : decodeWord op = some i) :
    op &&& (opcodeRow i).1 = (opcodeRow i).2 := by
  obtain ⟨rfl, -⟩ := encode_of_decodeWord h
  exact encode_matches_opcodeRow i

theorem opcodeRow_mem_opcodeMap (i : Instr) : opcodeRow i ∈ opcodeMap := by
  cases i <;> simp [opcodeRow, opcodeMap]

/-- Settles O5, by evaluation of the 34 rows. -/
theorem opcodeRowsNeverOverlap : Obligations.OpcodeRowsNeverOverlap :=
  ⟨by decide, by decide⟩

/-- No word matches both rows. -/
def RowsDisjoint (r q : Word × Word) : Prop := ∀ op : Word, op &&& r.1 = r.2 → op &&& q.1 ≠ q.2

/-- Two rows that one word matches agree on every bit that both fix. -/
theorem rowsDisjoint_of_commonBit {r q : Word × Word} (h : r.1 &&& q.1 &&& (r.2 ^^^ q.2) ≠ 0#16) : RowsDisjoint r q := by
  intro op hr hq
  apply h
  rw [← hr, ← hq]
  ext i hi
  simp only [BitVec.getElem_and, BitVec.getElem_xor, BitVec.getElem_zero]
  grind

theorem row_eq_of_match {op : Word} {r q : Word × Word} (hr : r ∈ opcodeMap) (hq : q ∈ opcodeMap)
    (hopr : op &&& r.1 = r.2) (hopq : op &&& q.1 = q.2) : r = q := by
  obtain ⟨-, hpairs⟩ := opcodeRowsNeverOverlap
  have hdisjoint : opcodeMap.Pairwise RowsDisjoint := hpairs.imp rowsDisjoint_of_commonBit
  have hsymm : Std.Symm RowsDisjoint := ⟨fun _ _ h op hq hr => h op hr hq⟩
  by_contra hne
  exact hdisjoint.forall hr hq hne op hopr hopq

/-! ## The legal words (R86) -/

/-- The groups of which every word is legal. -/
abbrev wholeGroups : List (BitVec 4) := [0x1#4, 0x2#4, 0x3#4, 0x4#4, 0x6#4, 0x7#4, 0xA#4, 0xB#4, 0xC#4, 0xD#4]

/-- The legal values of `N` in group 8. -/
abbrev group8Ns : List (BitVec 4) := [0x0#4, 0x1#4, 0x2#4, 0x3#4, 0x4#4, 0x5#4, 0x6#4, 0x7#4, 0xE#4]

/-- The legal values of `NN` in group E. -/
abbrev groupENNs : List Byte := [0x9E#8, 0xA1#8]

/-- The legal values of `NN` in group F. -/
abbrev groupFNNs : List Byte := [0x07#8, 0x0A#8, 0x15#8, 0x18#8, 0x1E#8, 0x29#8, 0x33#8, 0x55#8, 0x65#8]

theorem isSome_decodeGroup0 (op : Word) : (decodeGroup0 op).isSome = true ↔ op = 0x00E0#16 ∨ op = 0x00EE#16 := by
  unfold decodeGroup0
  split_ifs <;> simp_all

/-- The registers do not decide whether a word of group 8 is legal, so sixteen values of `N` are left to check. -/
theorem isSome_decodeGroup8 (x y : Reg) (n : BitVec 4) : (decodeGroup8 x y n).isSome = true ↔ n ∈ group8Ns := by
  have hxy : (decodeGroup8 x y n).isSome = (decodeGroup8 0x0#4 0x0#4 n).isSome := by
    unfold decodeGroup8
    split <;> rfl
  rw [hxy]
  clear hxy
  revert n
  decide

theorem isSome_decodeGroupE (x : Reg) (nn : Byte) : (decodeGroupE x nn).isSome = true ↔ nn ∈ groupENNs := by
  unfold decodeGroupE
  split_ifs <;> simp_all

theorem isSome_decodeGroupF (x : Reg) (nn : Byte) : (decodeGroupF x nn).isSome = true ↔ nn ∈ groupFNNs := by
  unfold decodeGroupF
  split_ifs <;> simp_all

theorem fieldG_of_group0_word {op : Word} (h : op = 0x00E0#16 ∨ op = 0x00EE#16) : fieldG op = 0x0#4 := by
  rcases h with rfl | rfl <;> rfl

/-- The list of R86, group by group. -/
def LegalWord (op : Word) : Prop :=
  fieldG op ∈ wholeGroups ∨
  (op = 0x00E0#16 ∨ op = 0x00EE#16) ∨
  ((fieldG op = 0x5#4 ∨ fieldG op = 0x9#4) ∧ fieldN op = 0x0#4) ∨
  (fieldG op = 0x8#4 ∧ fieldN op ∈ group8Ns) ∨
  (fieldG op = 0xE#4 ∧ fieldNN op ∈ groupENNs) ∨
  (fieldG op = 0xF#4 ∧ fieldNN op ∈ groupFNNs)

/-- By the group of the word: each clause of R86 but the group's own is about another group, `00E0` and `00EE` being in group 0. -/
theorem isSome_decodeWord (op : Word) : (decodeWord op).isSome = true ↔ LegalWord op := by
  rw [LegalWord, ← and_iff_right_of_imp (fieldG_of_group0_word (op := op))]
  rcases fieldG_cases op with hg | hg | hg | hg | hg | hg | hg | hg | hg | hg | hg | hg | hg | hg | hg | hg
  all_goals simp [decodeWord, hg, isSome_decodeGroup0, isSome_decodeGroup8, isSome_decodeGroupE, isSome_decodeGroupF]

/-- Settles O3: the criterion by the group of the word, the row and the word because the decoder drops no bit. -/
theorem decodeLegalWordsExactly : Obligations.DecodeLegalWordsExactly := by
  intro op
  refine ⟨isSome_decodeWord op, fun i h => ?_⟩
  obtain ⟨hencode, -⟩ := encode_of_decodeWord h
  exact ⟨match_of_decodeWord h, hencode⟩

/-! ## The decoder and the opcode map (R85, R86) -/

/-- A word that matches a row has the row's value in every field that the row's mask covers. -/
theorem extractLsb'_of_match {op m r : Word} {start len : Nat} (h : op &&& m = r)
    (hm : m.extractLsb' start len = BitVec.allOnes len) : op.extractLsb' start len = r.extractLsb' start len := by
  rw [← h, BitVec.extractLsb'_and, hm, BitVec.and_allOnes]

/-- A row fixes the fields by which its group decides, at values that R86 lists. -/
theorem opcodeMap_legal : ∀ row ∈ opcodeMap,
    (row.1 = 0xF000#16 ∧ fieldG row.2 ∈ wholeGroups) ∨
    (row.1 = 0xFFFF#16 ∧ (row.2 = 0x00E0#16 ∨ row.2 = 0x00EE#16)) ∨
    (row.1 = 0xF00F#16 ∧ (fieldG row.2 = 0x5#4 ∨ fieldG row.2 = 0x9#4) ∧ fieldN row.2 = 0x0#4) ∨
    (row.1 = 0xF00F#16 ∧ fieldG row.2 = 0x8#4 ∧ fieldN row.2 ∈ group8Ns) ∨
    (row.1 = 0xF0FF#16 ∧ fieldG row.2 = 0xE#4 ∧ fieldNN row.2 ∈ groupENNs) ∨
    (row.1 = 0xF0FF#16 ∧ fieldG row.2 = 0xF#4 ∧ fieldNN row.2 ∈ groupFNNs) := by
  decide

theorem fieldG_of_match {op m r : Word} (h : op &&& m = r) (hm : fieldG m = 0xF#4) : fieldG op = fieldG r :=
  extractLsb'_of_match h hm

theorem fieldN_of_match {op m r : Word} (h : op &&& m = r) (hm : fieldN m = 0xF#4) : fieldN op = fieldN r :=
  extractLsb'_of_match h hm

theorem fieldNN_of_match {op m r : Word} (h : op &&& m = r) (hm : fieldNN m = 0xFF#8) : fieldNN op = fieldNN r :=
  extractLsb'_of_match h hm

theorem legalWord_of_match {op : Word} {row : Word × Word} (hrow : row ∈ opcodeMap) (hop : op &&& row.1 = row.2) :
    LegalWord op := by
  unfold LegalWord
  rcases opcodeMap_legal row hrow with ⟨hm, h⟩ | ⟨hm, h⟩ | ⟨hm, h⟩ | ⟨hm, h⟩ | ⟨hm, h⟩ | ⟨hm, h⟩ <;> rw [hm] at hop
  · rw [← fieldG_of_match hop rfl] at h
    exact .inl h
  · have hword : op = row.2 := by rw [← hop]; exact (BitVec.and_allOnes (x := op)).symm
    rw [← hword] at h
    exact .inr (.inl h)
  · rw [← fieldG_of_match hop rfl, ← fieldN_of_match hop rfl] at h
    exact .inr (.inr (.inl h))
  · rw [← fieldG_of_match hop rfl, ← fieldN_of_match hop rfl] at h
    exact .inr (.inr (.inr (.inl h)))
  · rw [← fieldG_of_match hop rfl, ← fieldNN_of_match hop rfl] at h
    exact .inr (.inr (.inr (.inr (.inl h))))
  · rw [← fieldG_of_match hop rfl, ← fieldNN_of_match hop rfl] at h
    exact .inr (.inr (.inr (.inr (.inr h))))

/-- Settles O4: a word that matches a row is legal, and the row of what it decodes to is that row, since rows never overlap. -/
theorem decodeSelectsMatchingRow : Obligations.DecodeSelectsMatchingRow := by
  intro op
  refine ⟨fun i h => ⟨opcodeRow_mem_opcodeMap i, match_of_decodeWord h⟩, fun row hrow hop => ?_⟩
  obtain ⟨i, hi⟩ := Option.isSome_iff_exists.1 ((isSome_decodeWord op).2 (legalWord_of_match hrow hop))
  exact ⟨i, hi, row_eq_of_match (opcodeRow_mem_opcodeMap i) hrow (match_of_decodeWord hi) hop⟩

/-- Settles O6, by evaluation of the decoder. -/
theorem sampleWordsDecode : Obligations.SampleWordsDecode := by
  unfold Obligations.SampleWordsDecode
  decide

end Sys2Proof
end

section
/-! PROOFS. The unconditional jump and the four register skips (40_control_flow.md R105, R107, R109 to R112): each sets `pc`
and nothing else. -/

namespace Sys2Proof.Machine

variable (s : State)

/-! ## Setting `pc` -/

/-- The frame of a write of `pc`: no register, no byte of memory and no other part of the state changes. -/
theorem onlyChanges_setPc (v : Word) : OnlyChanges [] 0 0 [] s (s.setPc v) :=
  ⟨fun q _ => setPc_reg s v q, fun a _ => setPc_byteAt s v a, by simp⟩

theorem addrOfLiteral_toNat (nnn : Addr12) : (addrOfLiteral nnn).toNat = nnn.toNat :=
  BitVec.toNat_setWidth_of_le (by decide)

theorem exec_jp (nnn : Addr12) : exec (.jp nnn) s = .next (s.setPc (addrOfLiteral nnn)) := rfl

/-- Settles O30: the jump is one write of `pc`, of the literal extended with zeros. -/
theorem jumpResult : Obligations.JumpResult := fun nnn s =>
  ⟨s.setPc (addrOfLiteral nnn), exec_jp s nnn, addrOfLiteral_toNat nnn, onlyChanges_setPc s _⟩

/-! ## Skipping (R112) -/

theorem onlyChanges_skipIf (c : Bool) : OnlyChanges [] 0 0 [] s (s.skipIf c) :=
  skipIf_eq s c ▸ onlyChanges_setPc s _

@[simp] theorem skipIf_pc (c : Bool) : (s.skipIf c).pc = if c = true then s.pc + 4#16 else s.pc + 2#16 := by
  rw [skipIf_eq, setPc_pc]

theorem skipIf_beq_pc (a b : Byte) : (s.skipIf (a == b)).pc = if a = b then s.pc + 4#16 else s.pc + 2#16 := by
  simp only [skipIf_pc, beq_iff_eq]

theorem skipIf_bne_pc (a b : Byte) : (s.skipIf (a != b)).pc = if a = b then s.pc + 2#16 else s.pc + 4#16 := by
  simp only [skipIf_pc, bne_iff_ne, ne_eq, ite_not]

theorem exec_seImm (x : Reg) (nn : Byte) : exec (.seImm x nn) s = .next (s.skipIf (s.reg x == nn)) := rfl

theorem exec_sneImm (x : Reg) (nn : Byte) : exec (.sneImm x nn) s = .next (s.skipIf (s.reg x != nn)) := rfl

theorem exec_seReg (x y : Reg) : exec (.seReg x y) s = .next (s.skipIf (s.reg x == s.reg y)) := rfl

theorem exec_sneReg (x y : Reg) : exec (.sneReg x y) s = .next (s.skipIf (s.reg x != s.reg y)) := rfl

/-- Settles O34: both instructions are one skip, on equality and on inequality of the register and the immediate. -/
theorem immediateSkipResults : Obligations.ImmediateSkipResults := by
  intro x nn s
  constructor
  · exact ⟨_, exec_seImm s x nn, skipIf_beq_pc s (s.reg x) nn, onlyChanges_skipIf s _⟩
  · exact ⟨_, exec_sneImm s x nn, skipIf_bne_pc s (s.reg x) nn, onlyChanges_skipIf s _⟩

/-- Settles O35: both instructions are one skip, on equality and on inequality of the two registers. -/
theorem registerSkipResults : Obligations.RegisterSkipResults := by
  intro x y s
  constructor
  · exact ⟨_, exec_seReg s x y, skipIf_beq_pc s (s.reg x) (s.reg y), onlyChanges_skipIf s _⟩
  · exact ⟨_, exec_sneReg s x y, skipIf_bne_pc s (s.reg x) (s.reg y), onlyChanges_skipIf s _⟩

end Sys2Proof.Machine
end

section
/-! PROOFS. The loads and sums into one register (41_alu.md R120, R121): each writes `Vx` and advances, and writes no flag. -/

namespace Sys2Proof.Machine

variable (s : State)

/-! ## A register write followed by the advance -/

theorem setReg_advance_reg_same (x : Reg) (v : Byte) : (s.setReg x v).advance.reg x = v := by
  rw [advance_reg, setReg_reg, if_pos rfl]

/-- The frame of an instruction that writes one register: no other register, `VF` included, no byte of memory and no other part
of the state changes. -/
theorem onlyChanges_setReg_advance (x : Reg) (v : Byte) : OnlyChanges [x] 0 0 [] s (s.setReg x v).advance := by
  have hregs : RegsKept [x] s (s.setReg x v).advance := fun q hq => by
    rw [advance_reg, setReg_reg, if_neg (List.ne_of_not_mem_cons hq)]
  exact ⟨hregs, fun a _ => setReg_byteAt s x v a, by simp⟩

/-! ## The immediate instructions -/

theorem exec_ldImm (x : Reg) (nn : Byte) : exec (.ldImm x nn) s = .next (s.setReg x nn).advance := rfl

theorem exec_addImm (x : Reg) (nn : Byte) : exec (.addImm x nn) s = .next (s.setReg x (s.reg x + nn)).advance := rfl

/-- Settles O22: one register write, of the immediate. -/
theorem loadImmediateResult : Obligations.LoadImmediateResult := fun x nn s =>
  ⟨_, exec_ldImm s x nn, setReg_advance_reg_same s x nn, advance_pc _, onlyChanges_setReg_advance s x nn⟩

/-- Settles O23: one register write, of the sum of two bytes, which wraps at 256 (R121). -/
theorem addImmediateResult : Obligations.AddImmediateResult := by
  intro x nn s
  have hsum : ((s.setReg x (s.reg x + nn)).advance.reg x).toNat = ((s.reg x).toNat + nn.toNat) % 256 := by
    rw [setReg_advance_reg_same, BitVec.toNat_add]
  exact ⟨_, exec_addImm s x nn, hsum, advance_pc _, onlyChanges_setReg_advance s x _⟩

end Sys2Proof.Machine
end

section
/-! PROOFS. Clearing the display (42_display.md R140): the grid becomes the blank one of the configured shape, and `pc` advances. -/

namespace Sys2Proof.Machine

variable (s : State)

@[simp] theorem setFb_pixel (v : List (List Bool)) (r c : Nat) : (s.setFb v).pixel r c = Display.pixel v r c := rfl

/-- The frame of an instruction that writes only the grid: no register, `VF` included, no byte of memory and no other part of
the state changes. -/
theorem onlyChanges_setFb_advance (v : List (List Bool)) : OnlyChanges [] 0 0 [.display] s (s.setFb v).advance :=
  ⟨fun q _ => setFb_reg s v q, fun a _ => setFb_byteAt s v a, by simp⟩

theorem exec_cls : exec .cls s = .next (s.setFb (Display.blank s.cfg)).advance := rfl

/-- Settles O40: the grid written is the blank one, which has the configured shape and no pixel on. -/
theorem clearDisplayResult : Obligations.ClearDisplayResult := by
  intro s
  have hoff : ∀ r c, (s.setFb (Display.blank s.cfg)).advance.pixel r c = false := fun r c => by
    rw [advance_pixel, setFb_pixel, Display.pixel_blank]
  exact ⟨_, exec_cls s, Display.blank_wf s.cfg, hoff, advance_pc _, onlyChanges_setFb_advance s _⟩

end Sys2Proof.Machine
end

section
/-! PROOFS. Loading the address register with a literal (44_address_memory.md R160): one write of `I`, then the advance. -/

namespace Sys2Proof.Machine

variable (s : State)

/-- The frame of an instruction that writes only `I`: no register, `VF` included, no byte of memory and no other part of the
state changes. -/
theorem onlyChanges_setI_advance (v : Word) : OnlyChanges [] 0 0 [.addressReg] s (s.setI v).advance :=
  ⟨fun q _ => setI_reg s v q, fun a _ => setI_byteAt s v a, by simp⟩

theorem exec_ldI (nnn : Addr12) : exec (.ldI nnn) s = .next (s.setI (addrOfLiteral nnn)).advance := rfl

/-- Settles O44: one write of `I`, of the literal extended with zeros. -/
theorem loadAddressResult : Obligations.LoadAddressResult := by
  intro nnn s
  have hi : (s.setI (addrOfLiteral nnn)).advance.i.toNat = nnn.toNat := by
    rw [advance_i, setI_i, addrOfLiteral_toNat]
  exact ⟨_, exec_ldI s nnn, hi, advance_pc _, onlyChanges_setI_advance s _⟩

end Sys2Proof.Machine
end

section
/-! PROOFS. The register instructions (41_alu.md R122 to R133, 10_state.md R20): each writes `Vx`, the five flag writers `VF`
after it, and `pc` advances. -/

namespace Sys2Proof.Machine

variable (s : State)

/-! ## The registers (10_state.md R20) -/

theorem setReg_reg_same (r : Reg) (v : Byte) : (s.setReg r v).reg r = v := by rw [setReg_reg, if_pos rfl]

theorem setReg_reg_of_ne {q r : Reg} (v : Byte) (h : q ≠ r) : (s.setReg r v).reg q = s.reg q := by
  rw [setReg_reg, if_neg h]

/-- The frame of a register write. -/
theorem onlyChanges_setReg (r : Reg) (v : Byte) : OnlyChanges [r] 0 0 [] s (s.setReg r v) :=
  ⟨fun _ hq => setReg_reg_of_ne s v (List.ne_of_not_mem_cons hq), fun a _ => setReg_byteAt s r v a, by simp⟩

/-- Settles O52: what a register reads after a write, by whether it is the one written. -/
theorem registersAreIndependent : Obligations.RegistersAreIndependent := fun s r v =>
  ⟨setReg_reg_same s r v, fun _ hq => setReg_reg_of_ne s v hq, setReg_pc s r v, onlyChanges_setReg s r v⟩

/-! ## Moves and logic (R122 to R125) -/

theorem exec_ldReg (x y : Reg) : exec (.ldReg x y) s = .next (s.setReg x (s.reg y)).advance := rfl

theorem exec_orReg (x y : Reg) : exec (.orReg x y) s = .next (s.setReg x (s.reg x ||| s.reg y)).advance := rfl

theorem exec_andReg (x y : Reg) : exec (.andReg x y) s = .next (s.setReg x (s.reg x &&& s.reg y)).advance := rfl

theorem exec_xorReg (x y : Reg) : exec (.xorReg x y) s = .next (s.setReg x (s.reg x ^^^ s.reg y)).advance := rfl

/-- Settles O24: one register write, of the other register. -/
theorem moveRegisterResult : Obligations.MoveRegisterResult := fun x y s =>
  ⟨_, exec_ldReg s x y, setReg_advance_reg_same s x _, advance_pc _, onlyChanges_setReg_advance s x _⟩

/-- Settles O25: one register write each, of a word operation that acts bit by bit. -/
theorem logicResults : Obligations.LogicResults := by
  intro x y s
  refine ⟨⟨_, exec_orReg s x y, fun k => ?_, advance_pc _, onlyChanges_setReg_advance s x _⟩,
    ⟨_, exec_andReg s x y, fun k => ?_, advance_pc _, onlyChanges_setReg_advance s x _⟩,
    ⟨_, exec_xorReg s x y, fun k => ?_, advance_pc _, onlyChanges_setReg_advance s x _⟩⟩
  · rw [setReg_advance_reg_same, BitVec.getLsbD_or]
  · rw [setReg_advance_reg_same, BitVec.getLsbD_and]
  · rw [setReg_advance_reg_same, BitVec.getLsbD_xor]

/-! ## A result and its flag (R133) -/

theorem setWithFlag_advance_reg_of_ne {x : Reg} (v : Byte) (b : Bool) (hx : x ≠ 0xF#4) :
    (s.setWithFlag x v b).advance.reg x = v := by
  rw [advance_reg, setWithFlag_reg, if_neg (show x ≠ regF from hx), if_pos rfl]

/-- `VF` holds the flag, whatever the destination of the result is. -/
theorem setWithFlag_advance_reg_flag (x : Reg) (v : Byte) (b : Bool) :
    (s.setWithFlag x v b).advance.reg 0xF#4 = flagByte b :=
  (setWithFlag_reg s x v b regF).trans (if_pos rfl)

/-- The frame of a flag writer: only `Vx` and `VF` change. -/
theorem onlyChanges_setWithFlag_advance (x : Reg) (v : Byte) (b : Bool) :
    OnlyChanges [x, 0xF#4] 0 0 [] s (s.setWithFlag x v b).advance := by
  refine ⟨fun q hq => ?_, fun a _ => setWithFlag_byteAt s x v b a, by simp⟩
  obtain ⟨hx, hF⟩ : q ≠ x ∧ q ≠ regF := by simpa [regF] using hq
  rw [advance_reg, setWithFlag_reg, if_neg hF, if_neg hx]

theorem flagByte_decide (p : Prop) [Decidable p] : flagByte (decide p) = if p then 0x01#8 else 0x00#8 := by
  by_cases h : p <;> simp [flagByte, h]

theorem flagByte_toNat (b : Bool) : (flagByte b).toNat = b.toNat := by cases b <;> rfl

/-! ## Sums and differences (R127, R128, R130) -/

theorem exec_addReg (x y : Reg) : exec (.addReg x y) s =
    .next (s.setWithFlag x (s.reg x + s.reg y) (carryOut (s.reg x) (s.reg y))).advance := rfl

theorem exec_subReg (x y : Reg) : exec (.subReg x y) s =
    .next (s.setWithFlag x (s.reg x - s.reg y) (noBorrow (s.reg x) (s.reg y))).advance := rfl

theorem exec_subnReg (x y : Reg) : exec (.subnReg x y) s =
    .next (s.setWithFlag x (s.reg y - s.reg x) (noBorrow (s.reg y) (s.reg x))).advance := rfl

/-- The difference of two bytes is the difference of their values modulo 256. -/
theorem byte_sub_toNat (a b : Byte) : ((a - b).toNat : Int) = ((a.toNat : Int) - b.toNat) % 256 := by
  have ha := a.isLt
  have hb := b.isLt
  rw [BitVec.toNat_sub]
  omega

/-- Settles O26: the sum of two bytes and its carry, the flag written last. -/
theorem addWithCarryResult : Obligations.AddWithCarryResult := by
  intro x y s
  refine ⟨_, exec_addReg s x y, fun hx => ?_, ?_, advance_pc _, onlyChanges_setWithFlag_advance s x _ _⟩
  · rw [setWithFlag_advance_reg_of_ne s _ _ hx, BitVec.toNat_add]
  · rw [setWithFlag_advance_reg_flag, carryOut, flagByte_decide]

/-- What `SUB` and `SUBN` leave: the difference `a - b` and its no-borrow, the flag written last. -/
theorem difference_and_flag (x : Reg) (a b : Byte) :
    (x ≠ 0xF#4 → (((s.setWithFlag x (a - b) (noBorrow a b)).advance.reg x).toNat : Int) =
      ((a.toNat : Int) - b.toNat) % 256) ∧
    (s.setWithFlag x (a - b) (noBorrow a b)).advance.reg 0xF#4 = (if a.toNat ≥ b.toNat then 0x01#8 else 0x00#8) := by
  refine ⟨fun hx => ?_, ?_⟩
  · rw [setWithFlag_advance_reg_of_ne s _ _ hx, byte_sub_toNat]
  · rw [setWithFlag_advance_reg_flag, noBorrow, flagByte_decide]

/-- Settles O27: the two instructions subtract in opposite orders. -/
theorem subtractResults : Obligations.SubtractResults := by
  intro x y s
  obtain ⟨hsub, hsubFlag⟩ := difference_and_flag s x (s.reg x) (s.reg y)
  obtain ⟨hsubn, hsubnFlag⟩ := difference_and_flag s x (s.reg y) (s.reg x)
  exact ⟨⟨_, exec_subReg s x y, hsub, hsubFlag, advance_pc _, onlyChanges_setWithFlag_advance s x _ _⟩,
    ⟨_, exec_subnReg s x y, hsubn, hsubnFlag, advance_pc _, onlyChanges_setWithFlag_advance s x _ _⟩⟩

/-! ## Shifts (R129, R131) -/

theorem exec_shr (x y : Reg) : exec (.shr x y) s =
    .next (s.setWithFlag x (s.shiftOperand x y >>> 1) (bitOutRight (s.shiftOperand x y))).advance := rfl

theorem exec_shl (x y : Reg) : exec (.shl x y) s =
    .next (s.setWithFlag x (s.shiftOperand x y <<< 1) (bitOutLeft (s.shiftOperand x y))).advance := rfl

theorem shiftOperand_eq (x y : Reg) :
    s.shiftOperand x y = if s.cfg.shiftSrc = .x then s.reg x else s.reg y := by
  unfold State.shiftOperand
  cases s.cfg.shiftSrc <;> rfl

theorem flagByte_bitOutRight (v : Byte) : (flagByte (bitOutRight v)).toNat = v.toNat % 2 := by
  rw [flagByte_toNat, bitOutRight, BitVec.getLsbD, Nat.testBit_zero]
  rcases Nat.mod_two_eq_zero_or_one v.toNat with h | h <;> rw [h] <;> rfl

theorem flagByte_bitOutLeft (v : Byte) : (flagByte (bitOutLeft v)).toNat = v.toNat / 128 := by
  have hv := v.isLt
  rw [flagByte_toNat, bitOutLeft, BitVec.getLsbD, Nat.testBit_eq_decide_div_mod_eq]
  obtain h | h : v.toNat / 128 = 0 ∨ v.toNat / 128 = 1 := by omega
  all_goals simp [h]

/-- Settles O28: the operand halved or doubled, and the bit shifted out in `VF`, written last. -/
theorem shiftResults : Obligations.ShiftResults := by
  intro x y s v hv
  obtain rfl : v = s.shiftOperand x y := hv.trans (shiftOperand_eq s x y).symm
  refine ⟨⟨_, exec_shr s x y, fun hx => ?_, ?_, advance_pc _, onlyChanges_setWithFlag_advance s x _ _⟩,
    ⟨_, exec_shl s x y, fun hx => ?_, ?_, advance_pc _, onlyChanges_setWithFlag_advance s x _ _⟩⟩
  · rw [setWithFlag_advance_reg_of_ne s _ _ hx, BitVec.toNat_ushiftRight, Nat.shiftRight_eq_div_pow, pow_one]
  · rw [setWithFlag_advance_reg_flag, flagByte_bitOutRight]
  · rw [setWithFlag_advance_reg_of_ne s _ _ hx, BitVec.toNat_shiftLeft, Nat.shiftLeft_eq, pow_one]
  · rw [setWithFlag_advance_reg_flag, flagByte_bitOutLeft]

/-! ## The random byte (R132) -/

theorem exec_rnd (x : Reg) (nn : Byte) : exec (.rnd x nn) s =
    .next (s.drawn.setReg x (s.randomByte &&& nn)).advance := rfl

/-- The frame of `RND`: only `Vx` and the random port change. -/
theorem onlyChanges_drawn_setReg_advance (x : Reg) (v : Byte) :
    OnlyChanges [x] 0 0 [.random] s (s.drawn.setReg x v).advance :=
  ⟨fun _ hq => setReg_reg_of_ne s.drawn v (List.ne_of_not_mem_cons hq), fun a _ => drawn_byteAt s a, by simp⟩

theorem randomByte_of_supply {b : Byte} {rest : List Byte} (h : s.random = b :: rest) : s.randomByte = b := by
  rw [State.randomByte, h]

/-- Settles O29: the byte of the port under the mask, one byte of the supply consumed. -/
theorem randomResult : Obligations.RandomResult := by
  intro x nn s
  have hreg : (s.drawn.setReg x (s.randomByte &&& nn)).advance.reg x = s.randomByte &&& nn :=
    setReg_advance_reg_same s.drawn x _
  have hrandom : (s.drawn.setReg x (s.randomByte &&& nn)).advance.random = s.random.tail := rfl
  refine ⟨_, exec_rnd s x nn, hreg, fun b rest h => ?_, fun k hk => ?_, fun h => ?_, fun h => ?_, fun h => ?_,
    rfl, advance_pc _, onlyChanges_drawn_setReg_advance s x _⟩
  · exact ⟨by rw [hreg, randomByte_of_supply s h], by rw [hrandom, h, List.tail_cons]⟩
  · rw [hreg, BitVec.getLsbD_and, hk, Bool.and_false]
  · rw [hrandom, h, List.tail_nil]
  · rw [hreg, h]; exact BitVec.and_zero
  · rw [hreg, h]; exact BitVec.and_allOnes

end Sys2Proof.Machine
end

section
/-! PROOFS. Call, return and the indexed jump (40_control_flow.md R104, R106, R108), each outcome of the first two by itself. -/

namespace Sys2Proof.Machine

variable (s : State)

/-! ## Faults and the stack -/

/-- The frame of a fault: nothing but its record is set (60_exceptions.md R204). -/
theorem onlyChanges_raise (k : Fault) (o : Option Word) (a : Option Nat) :
    OnlyChanges [] 0 0 [.fault] s (s.raise k o a) :=
  ⟨fun q _ => raise_reg s k o a q, fun b _ => raise_byteAt s k o a b, by simp⟩

/-- The frame of a push or a pop followed by the jump. -/
theorem onlyChanges_setStack_setPc (v : List Word) (t : Word) :
    OnlyChanges [] 0 0 [.stack] s ((s.setStack v).setPc t) :=
  ⟨fun q _ => setStack_reg s v q, fun a _ => setStack_byteAt s v a, by simp⟩

/-! ## `CALL` and `RET` -/

theorem exec_call_of_room (nnn : Addr12) (h : ¬∃ d, s.cfg.stackDepth = some d ∧ d ≤ s.stack.length) :
    exec (.call nnn) s = .next ((s.setStack (s.stack ++ [s.pc + 2#16])).setPc (addrOfLiteral nnn)) := by
  rw [exec_call, if_neg (mt (stackFull_iff s).1 h)]

theorem exec_call_of_full (nnn : Addr12) (h : ∃ d, s.cfg.stackDepth = some d ∧ d ≤ s.stack.length) :
    exec (.call nnn) s = .next (s.raiseExec .stackOverflow (.call nnn) none) := by
  rw [exec_call, if_pos ((stackFull_iff s).2 h)]

theorem exec_ret_of_append {below : List Word} {v : Word} (h : s.stack = below ++ [v]) :
    exec .ret s = .next ((s.setStack below).setPc v) := by
  simp [exec_ret, h]

theorem exec_ret_of_empty (h : s.stack = []) : exec .ret s = .next (s.raiseExec .stackUnderflow .ret none) := by
  simp [exec_ret, h]

/-- Settles O31: a push and a jump with room on the stack, a fault without. -/
theorem callResult : Obligations.CallResult := by
  intro nnn s
  constructor
  · intro hroom
    have hnotFull : ¬∃ d, s.cfg.stackDepth = some d ∧ d ≤ s.stack.length :=
      fun ⟨d, hd, hle⟩ => Nat.not_le_of_lt (hroom d hd) hle
    exact ⟨_, exec_call_of_room s nnn hnotFull, rfl, addrOfLiteral_toNat nnn, onlyChanges_setStack_setPc s _ _⟩
  · intro d hd hle
    exact ⟨_, _, exec_call_of_full s nnn ⟨d, hd, hle⟩, rfl, rfl, rfl, rfl, rfl, rfl, rfl, onlyChanges_raise s _ _ _⟩

/-- Settles O32: a pop and a jump on a stack with a last entry, a fault on the empty one. -/
theorem returnResult : Obligations.ReturnResult := by
  intro s
  constructor
  · intro below v hstack
    exact ⟨_, exec_ret_of_append s hstack, rfl, rfl, onlyChanges_setStack_setPc s _ _⟩
  · intro hempty
    exact ⟨_, _, exec_ret_of_empty s hempty, rfl, rfl, rfl, rfl, rfl, rfl, rfl, onlyChanges_raise s _ _ _⟩

/-! ## The indexed jump -/

theorem exec_jpV0 (nnn : Addr12) :
    exec (.jpV0 nnn) s = .next (s.setPc (addrOfLiteral nnn + wordOfByte (s.reg 0x0#4))) := rfl

theorem wordOfByte_toNat (v : Byte) : (wordOfByte v).toNat = v.toNat := BitVec.toNat_setWidth_of_le (by decide)

/-- A literal and a byte are too small for their sum to wrap. -/
theorem addrOfLiteral_add_wordOfByte_toNat (nnn : Addr12) (v : Byte) :
    (addrOfLiteral nnn + wordOfByte v).toNat = nnn.toNat + v.toNat := by
  have hn := nnn.isLt
  have hv := v.isLt
  rw [BitVec.toNat_add, addrOfLiteral_toNat, wordOfByte_toNat]
  omega

/-- Settles O33: one write of `pc`, of a sum that does not wrap. -/
theorem indexedJumpResult : Obligations.IndexedJumpResult := fun nnn s =>
  ⟨_, exec_jpV0 s nnn, addrOfLiteral_add_wordOfByte_toNat nnn _, onlyChanges_setPc s _⟩

end Sys2Proof.Machine
end

section
/-! PROOFS. Keys, timer and the sound hook (43_input_timer.md R150 to R158). -/

namespace Sys2Proof.Machine

variable (s : State)

/-! ## Keys -/

theorem exec_skp (x : Reg) : exec (.skp x) s = .next (s.skipIf (s.keyPressed (s.reg x))) := rfl

theorem exec_sknp (x : Reg) : exec (.sknp x) s = .next (s.skipIf (!s.keyPressed (s.reg x))) := rfl

theorem skipIf_not_pc (c : Bool) : (s.skipIf (!c)).pc = if c = true then s.pc + 2#16 else s.pc + 4#16 := by
  cases c <;> rfl

/-- Settles O36: both instructions are one skip, on the pressed state and on its negation. -/
theorem keySkipResults : Obligations.KeySkipResults := by
  intro x s pressed hpressed
  obtain rfl : pressed = s.keyPressed (s.reg x) := hpressed
  exact ⟨⟨_, exec_skp s x, skipIf_pc s _, onlyChanges_skipIf s _⟩,
    ⟨_, exec_sknp s x, skipIf_not_pc s _, onlyChanges_skipIf s _⟩⟩

theorem exec_ldVxK_of_none (x : Reg) (h : s.input.last = none) : exec (.ldVxK x) s = .next s := by rw [exec_ldVxK, h]

theorem exec_ldVxK_of_some (x : Reg) {k : Key} (h : s.input.last = some k) :
    exec (.ldVxK x) s = .next (s.setReg x (byteOfKey k)).advance := by rw [exec_ldVxK, h]

theorem byteOfKey_toNat (k : Key) : (byteOfKey k).toNat = k.toNat := BitVec.toNat_setWidth_of_le (by decide)

/-- Settles O37: the stall answers the state itself, a key is one register write. -/
theorem keyWaitResult : Obligations.KeyWaitResult := by
  refine fun x s => ⟨exec_ldVxK_of_none s x, fun k hk => ?_⟩
  refine ⟨_, exec_ldVxK_of_some s x hk, ?_, advance_pc _, onlyChanges_setReg_advance s x _⟩
  rw [setReg_advance_reg_same, byteOfKey_toNat]

/-! ## Timer and sound hook -/

theorem exec_ldVxDt (x : Reg) : exec (.ldVxDt x) s = .next (s.setReg x s.dt).advance := rfl

theorem exec_ldDtVx (x : Reg) : exec (.ldDtVx x) s = .next (s.setDt (s.reg x)).advance := rfl

theorem exec_ldStVx (x : Reg) : exec (.ldStVx x) s = .next s.advance := rfl

/-- The frame of an instruction that writes only `DT`. -/
theorem onlyChanges_setDt_advance (v : Byte) : OnlyChanges [] 0 0 [.timer] s (s.setDt v).advance :=
  ⟨fun q _ => setDt_reg s v q, fun a _ => setDt_byteAt s v a, by simp⟩

/-- Settles O38: one register write of the timer, and one timer write of a register. -/
theorem timerInstructionResults : Obligations.TimerInstructionResults := fun x s =>
  ⟨⟨_, exec_ldVxDt s x, setReg_advance_reg_same s x _, advance_pc _, onlyChanges_setReg_advance s x _⟩,
    ⟨_, exec_ldDtVx s x, rfl, advance_pc _, onlyChanges_setDt_advance s _⟩⟩

/-- Settles O39: the hook is the advance of `pc` and nothing else. -/
theorem soundHookResult : Obligations.SoundHookResult := fun x s =>
  ⟨_, exec_ldStVx s x, advance_pc s, onlyChanges_setPc s _⟩

end Sys2Proof.Machine
end

section
/-! PROOFS. The address register, the decimal store and the block moves (44_address_memory.md R161 to R167), and their one
fault (20_memory.md R67). -/

namespace Sys2Proof.Machine

variable (s : State)

/-! ## `ADD I` and `LD F` (R161, R162) -/

theorem exec_addI (x : Reg) : exec (.addI x) s = .next (s.setI (s.i + wordOfByte (s.reg x))).advance := rfl

theorem exec_ldF (x : Reg) : exec (.ldF x) s = .next (s.setI (s.glyphAddress (s.reg x))).advance := rfl

/-- Settles O45: one write of `I`, of a sum of words, which wraps at 65536. -/
theorem addAddressResult : Obligations.AddAddressResult := by
  intro x s
  have hi : (s.setI (s.i + wordOfByte (s.reg x))).advance.i.toNat = (s.i.toNat + (s.reg x).toNat) % 65536 := by
    rw [advance_i, setI_i, BitVec.toNat_add, wordOfByte_toNat]
  exact ⟨_, exec_addI s x, hi, advance_pc _, onlyChanges_setI_advance s _⟩

/-- Settles O46: one write of `I`, of the glyph formula on the whole byte. -/
theorem glyphAddressResult : Obligations.GlyphAddressResult := fun x s =>
  ⟨_, exec_ldF s x, BitVec.toNat_ofNat _ _, advance_pc _, onlyChanges_setI_advance s _⟩

/-! ## Stores of consecutive bytes -/

/-- A stored byte is read back. -/
theorem pokes_byteAt_stored (a : Nat) (vs : List Byte) {k : Nat} (hk : k < vs.length) :
    (s.pokes a vs).byteAt (a + k) = vs.getD k 0#8 := by
  rw [pokes_byteAt, if_pos (by omega), Nat.add_sub_cancel_left]

theorem memKept_pokes (a : Nat) (vs : List Byte) : MemKept a vs.length s (s.pokes a vs) := by
  intro b hb
  rw [pokes_byteAt, if_neg (by omega)]

/-- The frame of a store of consecutive bytes. -/
theorem onlyChanges_pokes (a : Nat) (vs : List Byte) : OnlyChanges [] a vs.length [] s (s.pokes a vs) :=
  ⟨fun q _ => pokes_reg s a vs q, memKept_pokes s a vs, by simp⟩

/-- The frame of a store of consecutive bytes after which `I` advances. -/
theorem onlyChanges_pokes_setI_advance (a : Nat) (vs : List Byte) (v : Word) :
    OnlyChanges [] a vs.length [.addressReg] s ((s.pokes a vs).setI v).advance :=
  ⟨fun q _ => pokes_reg s a vs q, memKept_pokes s a vs, by simp⟩

/-- Each digit of a byte fits a byte. -/
theorem decimalDigits_toNat (v : Byte) :
    (decimalDigits v).map BitVec.toNat = [v.toNat / 100, v.toNat / 10 % 10, v.toNat % 10] := by
  have hv := v.isLt
  simp only [decimalDigits, List.map_cons, List.map_nil, BitVec.toNat_ofNat]
  rw [Nat.mod_eq_of_lt (show v.toNat / 100 < 2 ^ 8 by omega), Nat.mod_eq_of_lt (show v.toNat / 10 % 10 < 2 ^ 8 by omega),
    Nat.mod_eq_of_lt (show v.toNat % 10 < 2 ^ 8 by omega)]

theorem exec_ldB_of_fits (x : Reg) (h : s.i.toNat + 3 ≤ memSize) :
    exec (.ldB x) s = .next (s.pokes s.i.toNat (decimalDigits (s.reg x))).advance := by
  rw [exec_ldB, if_pos h]

/-- Settles O47: each digit is read back where it was stored, and the frame is that of the store. -/
theorem decimalStoreResult : Obligations.DecimalStoreResult := by
  intro x s h
  have hdigit : ∀ k, k < 3 → ((s.pokes s.i.toNat (decimalDigits (s.reg x))).byteAt (s.i.toNat + k)).toNat =
      [(s.reg x).toNat / 100, (s.reg x).toNat / 10 % 10, (s.reg x).toNat % 10].getD k 0 := by
    intro k hk
    rw [pokes_byteAt_stored _ _ _ hk, ← decimalDigits_toNat]
    exact (List.getD_map _ 0#8 BitVec.toNat).symm
  exact ⟨_, exec_ldB_of_fits s x (Nat.succ_le_of_lt h), hdigit 0 (by decide), hdigit 1 (by decide), hdigit 2 (by decide),
    by simp, onlyChanges_pokes s _ (decimalDigits (s.reg x))⟩

/-! ## Block moves (R164 to R166) -/

theorem blockEnd_toNat {x : Reg} (h : s.i.toNat + x.toNat < memSize) :
    (s.blockEnd x).toNat = s.i.toNat + x.toNat + 1 := by
  rw [State.blockEnd, BitVec.toNat_ofNat]
  exact Nat.mod_eq_of_lt (Nat.lt_of_le_of_lt h (by decide))

theorem exec_storeRegs_of_fits {x : Reg} (h : s.i.toNat + x.toNat < memSize) :
    exec (.storeRegs x) s = .next ((s.pokes s.i.toNat (s.regsUpTo x)).setI (s.blockEnd x)).advance := by
  rw [exec_storeRegs, if_pos (by omega)]

/-- Settles O48: each register is read back where it was stored, and the frame is that of the store but for `I`. -/
theorem blockStoreResult : Obligations.BlockStoreResult := by
  intro x s h
  have hlen := regsUpTo_length s x
  refine ⟨_, exec_storeRegs_of_fits s h, fun k hk => ?_, blockEnd_toNat s h, by simp, ?_⟩
  · rw [advance_byteAt, setI_byteAt, pokes_byteAt_stored _ _ _ (by omega), regsUpTo_getD s x k _ hk]
  · exact hlen ▸ onlyChanges_pokes_setI_advance s _ (s.regsUpTo x) _

theorem getD_map_range (f : Nat → Byte) (n k : Nat) (d : Byte) :
    ((List.range n).map f).getD k d = if k < n then f k else d := by
  split <;> simp_all

/-- The registers outside the list of the loaded ones are those past `Vx`. -/
theorem toNat_lt_of_not_mem_loaded {x q : Reg} (hq : q ∉ (List.range (x.toNat + 1)).map (BitVec.ofNat 4)) :
    x.toNat < q.toNat := by
  by_contra hle
  exact hq (List.mem_map.2 ⟨q.toNat, List.mem_range.2 (by omega), by simp⟩)

theorem exec_loadRegs_of_fits {x : Reg} (h : s.i.toNat + x.toNat < memSize) :
    exec (.loadRegs x) s = .next ((s.setRegs ((List.range (x.toNat + 1)).map fun k =>
      s.byteAt (s.i.toNat + k))).setI (s.blockEnd x)).advance := by
  rw [exec_loadRegs, if_pos (by omega)]

/-- Settles O49: a register up to `Vx` takes its byte, a later one stays. -/
theorem blockLoadResult : Obligations.BlockLoadResult := by
  intro x s h
  refine ⟨_, exec_loadRegs_of_fits s h, fun k hk => ?_, by simpa using blockEnd_toNat s h, by simp, fun q hq => ?_,
    fun a _ => by simp, by simp⟩
  · rw [advance_reg, setI_reg, setRegs_reg, getD_map_range, if_pos (by omega)]
  · have hpast := toNat_lt_of_not_mem_loaded hq
    rw [advance_reg, setI_reg, setRegs_reg, getD_map_range, if_neg (by omega)]

/-- Settles O53: the load's bytes are the store's, which are the registers. -/
theorem blockStoreThenLoad : Obligations.BlockStoreThenLoad := by
  intro x s t r h hexec hmem hcfg hi
  obtain ⟨t', hexec', hbytes, hti, -⟩ := blockStoreResult x s h
  obtain rfl : t' = t := Host.Outcome.next.inj (hexec'.symm.trans hexec)
  obtain ⟨u, hload, hregs, hui, -⟩ := blockLoadResult x r (hi.symm ▸ h)
  have hread : ∀ a, r.byteAt a = t'.byteAt a := fun a => by rw [State.byteAt, State.byteAt, hmem, hcfg]
  refine ⟨u, hload, BitVec.eq_of_toNat_eq (by rw [hui, hti, hi]), fun k hk => ?_⟩
  rw [hregs k hk, hread, hi, hbytes k hk]

/-! ## Data addresses out of bounds (20_memory.md R67) -/

/-- Each of the four instructions that use data addresses faults with the smallest failing one. -/
theorem exec_of_outOfBounds {instr : Instr} (h0 : dataLength instr ≠ 0)
    (h : memSize < s.i.toNat + dataLength instr) :
    exec instr s = .next (s.raiseExec .memoryOutOfBounds instr (some (max s.i.toNat memSize))) := by
  cases instr with
  | drw x y n =>
    simp only [dataLength] at h0 h
    rw [exec_drw, if_neg (by omega)]
  | ldB x =>
    simp only [dataLength] at h
    rw [exec_ldB, if_neg (by omega)]
  | storeRegs x =>
    simp only [dataLength] at h
    rw [exec_storeRegs, if_neg (by omega)]
  | loadRegs x =>
    simp only [dataLength] at h
    rw [exec_loadRegs, if_neg (by omega)]
  | _ => exact absurd rfl h0

/-- Settles O50: the fault's record and its frame. -/
theorem dataOutOfBoundsFaults : Obligations.DataOutOfBoundsFaults := fun _ s h0 h =>
  ⟨_, _, exec_of_outOfBounds s h0 h, rfl, rfl, rfl, rfl, rfl, rfl, rfl, onlyChanges_raise s _ _ _⟩

end Sys2Proof.Machine
end

section
/-! PROOFS. Drawing a sprite (42_display.md R142 to R146) and the flat view of the grid (10_state.md R31): the pixel operations
of a draw are counted by `Display.hits`, and `Display.foldl_xorAt` says what they do. -/

namespace Sys2Proof.Machine

/-! ## What a draw does to a grid (R142, R145) -/

/-- A list with its positions, read off the positions. -/
theorem zipIdx_eq_map_range (bytes : List Byte) :
    bytes.zipIdx = (List.range bytes.length).map fun k => (bytes.getD k 0#8, k) := by
  apply List.ext_getElem
  · simp
  · intro k hk _
    rw [List.length_zipIdx] at hk
    simp [hk]

/-- The pixel operations of a draw that XOR a 1 into a pixel are the hits on it. -/
theorem Display.count_targets (c : Config) (bytes : List Byte) (x0 y0 r col : Nat) :
    Display.count (Display.targets c bytes x0 y0) r col = Display.hits c bytes x0 y0 r col := by
  have hprod : List.range bytes.length ×ˢ List.range 8 =
      (List.range bytes.length).flatMap fun row => (List.range 8).map (Prod.mk row) := rfl
  rw [Display.count, Display.targets, Display.hits, zipIdx_eq_map_range, hprod, List.flatMap_map, List.countP_flatMap,
    List.countP_flatMap]
  simp only [Function.comp_def, List.countP_map, Display.spriteBit]

section Draw

variable {c : Config} {fb : List (List Bool)} (bytes : List Byte) (x0 y0 : Nat)
variable (hw : 1 ≤ c.displayW) (hh : 1 ≤ c.displayH) (hfb : Display.wf c fb = true)
include hw hh hfb

/-- A pixel is flipped once per hit (R142). -/
theorem Display.pixel_draw (r col : Nat) :
    Display.pixel (Display.draw c bytes x0 y0 fb).1 r col =
      (Display.pixel fb r col ^^ decide (Display.hits c bytes x0 y0 r col % 2 = 1)) := by
  obtain ⟨-, hpixel, -⟩ := Display.foldl_xorAt c _ fb false hfb (Display.targets_inside c bytes x0 y0 hw hh)
  rw [Display.draw_eq_foldl, hpixel, Display.count_targets]

/-- A draw collides exactly when a hit met a pixel that was lit, or lit by an earlier hit (R145). -/
theorem Display.draw_collides_iff : (Display.draw c bytes x0 y0 fb).2 = true ↔
    ∃ r col, r < c.displayH ∧ col < c.displayW ∧
      ((Display.pixel fb r col = true ∧ 1 ≤ Display.hits c bytes x0 y0 r col) ∨
        2 ≤ Display.hits c bytes x0 y0 r col) := by
  obtain ⟨-, -, hhit⟩ := Display.foldl_xorAt c _ fb false hfb (Display.targets_inside c bytes x0 y0 hw hh)
  rw [Display.draw_eq_foldl, hhit]
  simp only [Display.count_targets, Bool.false_eq_true, false_or]

end Draw

/-! ## `DRW` (R143) -/

variable (s : State)

/-- `DRW` inside memory draws the sprite at `I` and puts the collision bit into `VF`. -/
theorem exec_drw_of_fits (x y : Reg) {n : Nat} (h : n = 0 ∨ s.i.toNat + n ≤ memSize) :
    exec (.drw x y n) s = .next
      ((s.setFb (Display.draw s.cfg (s.spriteBytes n) (s.reg x).toNat (s.reg y).toNat s.fb).1).setReg regF
        (flagByte (Display.draw s.cfg (s.spriteBytes n) (s.reg x).toNat (s.reg y).toNat s.fb).2)).advance := by
  rw [exec_drw, if_pos h]
  rfl

/-- The frame of `DRW`: only the grid and `VF` change. -/
theorem onlyChanges_setFb_setReg_advance (v : List (List Bool)) (r : Reg) (b : Byte) :
    OnlyChanges [r] 0 0 [.display] s ((s.setFb v).setReg r b).advance :=
  ⟨fun _ hq => setReg_reg_of_ne _ b (List.ne_of_not_mem_cons hq), fun a _ => setFb_byteAt s v a, by simp⟩

theorem flagByte_eq_one_iff (b : Bool) : flagByte b = 0x01#8 ↔ b = true := by cases b <;> decide

theorem flagByte_zero_or_one (b : Bool) : flagByte b = 0x00#8 ∨ flagByte b = 0x01#8 := by cases b <;> decide

/-- Settles O41: what the draw does to each pixel and when it collides are the two laws of `Display.draw`. -/
theorem drawSpriteResult : Obligations.DrawSpriteResult := by
  intro x y n s hits hcfg hfb _ hfits hhits
  obtain ⟨hw, hh⟩ := Config.wf_grid _ hcfg
  subst hhits
  have hflag : ∀ fb b, ((s.setFb fb).setReg regF b).advance.reg 0xF#4 = b :=
    fun fb b => setReg_advance_reg_same (s.setFb fb) regF b
  refine ⟨_, exec_drw_of_fits s x y hfits, fun r c _ _ => ?_, ?_, ?_, ?_, advance_pc _,
    onlyChanges_setFb_setReg_advance s _ _ _⟩
  · exact Display.pixel_draw _ _ _ hw hh hfb r c
  · rw [hflag]; exact flagByte_zero_or_one _
  · rw [hflag, flagByte_eq_one_iff]; exact Display.draw_collides_iff _ _ _ hw hh hfb
  · exact Display.draw_wf _ _ _ _ _ hw hh hfb

/-! ## Drawing twice (R146) -/

/-- Two grids of one shape with equal pixels are equal. -/
theorem Display.ext {c : Config} {fb fb' : List (List Bool)} (h : Display.wf c fb = true) (h' : Display.wf c fb' = true)
    (hp : ∀ r col, Display.pixel fb r col = Display.pixel fb' r col) : fb = fb' := by
  obtain ⟨hlen, hrow⟩ := (Display.wf_iff c fb).1 h
  obtain ⟨hlen', hrow'⟩ := (Display.wf_iff c fb').1 h'
  refine List.ext_getElem (hlen.trans hlen'.symm) fun r hr hr' => ?_
  have hl := hrow _ (List.getElem_mem hr)
  have hl' := hrow' _ (List.getElem_mem hr')
  refine List.ext_getElem (hl.trans hl'.symm) fun col hc hc' => ?_
  simpa [Display.pixel, hr, hr', hc, hc'] using hp r col

/-- Two numbers below a width that agree modulo it after a common shift are equal. -/
theorem eq_of_add_mod_eq {a k k' w : Nat} (hk : k < w) (hk' : k' < w) (h : (a + k) % w = (a + k') % w) : k = k' :=
  (Nat.ModEq.add_left_cancel' a h).eq_of_lt_of_lt hk hk'

/-- On a grid at least 8 wide and as high as the sprite no two sprite pixels fall on one pixel (R146). -/
theorem Display.hits_le_one (c : Config) (bytes : List Byte) (x0 y0 r col : Nat) (hw : 8 ≤ c.displayW)
    (hh : bytes.length ≤ c.displayH) : Display.hits c bytes x0 y0 r col ≤ 1 := by
  have hnodup : (List.range bytes.length ×ˢ List.range 8).Nodup := List.nodup_range.product List.nodup_range
  rw [Display.hits, List.countP_eq_length_filter, ← List.toFinset_card_of_nodup (hnodup.filter _), Finset.card_le_one]
  rintro ⟨row, bit⟩ hp ⟨row', bit'⟩ hp'
  simp only [List.mem_toFinset, List.mem_filter, List.mem_product, List.mem_range, Bool.and_eq_true, beq_iff_eq] at hp hp'
  obtain ⟨⟨hrow, hbit⟩, ⟨-, hr⟩, hc⟩ := hp
  obtain ⟨⟨hrow', hbit'⟩, ⟨-, hr'⟩, hc'⟩ := hp'
  rw [eq_of_add_mod_eq (by omega) (by omega) (hr.trans hr'.symm), eq_of_add_mod_eq (by omega) (by omega) (hc.trans hc'.symm)]

section DrawTwice

variable {c : Config} {fb : List (List Bool)} (bytes : List Byte) (x0 y0 : Nat)
variable (hw : 1 ≤ c.displayW) (hh : 1 ≤ c.displayH) (hfb : Display.wf c fb = true)
include hw hh hfb

/-- Drawing twice flips each pixel an even number of times, on the narrow grids too. -/
theorem Display.draw_draw : (Display.draw c bytes x0 y0 (Display.draw c bytes x0 y0 fb).1).1 = fb := by
  have hmid := Display.draw_wf c bytes x0 y0 fb hw hh hfb
  refine Display.ext (Display.draw_wf c bytes x0 y0 _ hw hh hmid) hfb fun r col => ?_
  rw [Display.pixel_draw bytes x0 y0 hw hh hmid, Display.pixel_draw bytes x0 y0 hw hh hfb, Bool.xor_assoc, Bool.xor_self,
    Bool.xor_false]

/-- Where no pixel is hit twice, a draw collides exactly when it hits a lit pixel. -/
theorem Display.draw_collides_iff_of_hits_le_one (hle : ∀ r col, Display.hits c bytes x0 y0 r col ≤ 1) :
    (Display.draw c bytes x0 y0 fb).2 = true ↔ ∃ r col, r < c.displayH ∧ col < c.displayW ∧
      Display.hits c bytes x0 y0 r col = 1 ∧ Display.pixel fb r col = true := by
  rw [Display.draw_collides_iff bytes x0 y0 hw hh hfb]
  refine exists_congr fun r => exists_congr fun col => and_congr_right fun _ => and_congr_right fun _ => ?_
  have hone := hle r col
  constructor
  · rintro (⟨hlit, hhit⟩ | htwo)
    · exact ⟨by omega, hlit⟩
    · omega
  · rintro ⟨hhit, hlit⟩
    exact .inl ⟨hlit, by omega⟩

/-- A draw flips a pixel that it hits once. -/
theorem Display.pixel_draw_of_hit {r col : Nat} (h : Display.hits c bytes x0 y0 r col = 1) :
    Display.pixel (Display.draw c bytes x0 y0 fb).1 r col = !Display.pixel fb r col := by
  rw [Display.pixel_draw bytes x0 y0 hw hh hfb, h]
  exact Bool.xor_true _

end DrawTwice

/-- Settles O42: no pixel is hit twice, so the first draw flips what it hits, and the second meets it flipped. -/
theorem drawTwiceRestoresDisplay : Obligations.DrawTwiceRestoresDisplay := by
  intro c bytes x0 y0 fb hfb hw8 hlen hh
  have hw : 1 ≤ c.displayW := by omega
  have hle := fun r col => Display.hits_le_one c bytes x0 y0 r col hw8 hlen
  have hmid := Display.draw_wf c bytes x0 y0 fb hw hh hfb
  refine ⟨(Display.draw c bytes x0 y0 fb).1, (Display.draw c bytes x0 y0 fb).2,
    (Display.draw c bytes x0 y0 (Display.draw c bytes x0 y0 fb).1).2, rfl,
    Prod.ext (Display.draw_draw bytes x0 y0 hw hh hfb) rfl,
    Display.draw_collides_iff_of_hits_le_one bytes x0 y0 hw hh hfb hle, ?_⟩
  rw [Display.draw_collides_iff_of_hits_le_one bytes x0 y0 hw hh hmid hle]
  refine exists_congr fun r => exists_congr fun col => and_congr_right fun _ => and_congr_right fun _ => ?_
  refine and_congr_right fun hhit => ?_
  rw [Display.pixel_draw_of_hit bytes x0 y0 hw hh hfb hhit, Bool.not_eq_true']

/-! ## Wrapping (R144) -/

/-- The pixel operations of a draw depend on its coordinates modulo the grid. -/
theorem Display.targets_mod (c : Config) (bytes : List Byte) (x0 y0 : Nat) :
    Display.targets c bytes x0 y0 = Display.targets c bytes (x0 % c.displayW) (y0 % c.displayH) := by
  simp only [Display.targets, Nat.mod_add_mod]

theorem Display.draw_mod (c : Config) (bytes : List Byte) (x0 y0 : Nat) (fb : List (List Bool)) :
    Display.draw c bytes x0 y0 fb = Display.draw c bytes (x0 % c.displayW) (y0 % c.displayH) fb := by
  rw [Display.draw_eq_foldl, Display.draw_eq_foldl, ← Display.targets_mod]

/-- Settles O43: the width and the height are 0 modulo themselves. -/
theorem drawWrapsCoordinates : Obligations.DrawWrapsCoordinates := by
  refine fun c bytes x0 y0 fb => ⟨Display.draw_mod c bytes x0 y0 fb, ?_⟩
  rw [Display.draw_mod, Nat.mod_self, Nat.mod_self]

/-! ## The flat view (10_state.md R31) -/

/-- A list of rows of one width, laid out row after row, is read row by row. -/
theorem getD_flatten_of_width {w c : Nat} (hc : c < w) (rows : List (List Bool)) (hrow : ∀ row ∈ rows, row.length = w)
    (r : Nat) : rows.flatten.getD (r * w + c) false = (rows.getD r []).getD c false := by
  induction rows generalizing r with
  | nil => rfl
  | cons row rows ih =>
    obtain ⟨hw, hrows⟩ := List.forall_mem_cons.1 hrow
    rw [List.flatten_cons]
    cases r with
    | zero => rw [Nat.zero_mul, Nat.zero_add, List.getD_append _ _ _ _ (by omega), List.getD_cons_zero]
    | succ r =>
      rw [List.getD_append_right _ _ _ _ (by rw [hw, Nat.succ_mul]; omega), List.getD_cons_succ, ← ih hrows r]
      congr 1
      rw [hw, Nat.succ_mul]
      omega

/-- Settles O60: the length is a sum of equal widths, the entries are read row by row. -/
theorem flatFramebuffer : Obligations.FlatFramebuffer := by
  intro s hfb
  obtain ⟨hlen, hrow⟩ := (Display.wf_iff _ _).1 hfb
  refine ⟨?_, fun r c _ hc => getD_flatten_of_width hc s.fb hrow r⟩
  rw [State.flat, List.length_flatten, List.map_congr_left hrow, List.map_const', List.sum_replicate, hlen, smul_eq_mul,
    Nat.mul_comm]

end Sys2Proof.Machine
end

section
/-! PROOFS. What an instruction can do to the state: it faults on exactly three conditions (60_exceptions.md R201), and else has
one of the effects below. Every rule about all instructions is read from this classification. -/

namespace Sys2Proof.Machine

/-- The conditions under which an instruction faults after its decode (R201). -/
def ExecFaults (i : Instr) (s : State) : Prop :=
  (i = .ret ∧ s.stack = []) ∨
  ((∃ nnn, i = .call nnn) ∧ ∃ d, s.cfg.stackDepth = some d ∧ d ≤ s.stack.length) ∨
  (dataLength i ≠ 0 ∧ memSize < s.i.toNat + dataLength i)

/-- The register that a load, a sum, a move or a logic instruction, the timer read or the key-wait names as its destination. -/
def destReg : Instr → Option Reg
  | .ldImm x _ | .addImm x _ | .ldReg x _ | .orReg x _ | .andReg x _ | .xorReg x _ | .ldVxDt x | .ldVxK x => some x
  | _ => none

/-- The five flag writers on registers (41_alu.md R127 to R131). -/
def WritesFlag (i : Instr) : Prop :=
  ∃ x y, i = .addReg x y ∨ i = .subReg x y ∨ i = .shr x y ∨ i = .subnReg x y ∨ i = .shl x y

/-- The six skips (40_control_flow.md R112, 43_input_timer.md R150, R151). -/
def IsSkip (i : Instr) : Prop :=
  (∃ x nn, i = .seImm x nn ∨ i = .sneImm x nn) ∨ (∃ x y, i = .seReg x y ∨ i = .sneReg x y) ∨
    ∃ x, i = .skp x ∨ i = .sknp x

/-- The three instructions that only compute `I` (44_address_memory.md R160 to R162). -/
def SetsAddress (i : Instr) : Prop := (∃ nnn, i = .ldI nnn) ∨ ∃ x, i = .addI x ∨ i = .ldF x

/-- What an instruction that does not fault makes of a state. A constructor fixes which parts are written, and of a value written
what the rules about all instructions need; the exact values are those of the instructions' own results. -/
inductive Effect (s : State) : Instr → State → Prop where
  | writeReg {i : Instr} {x : Reg} (v : Byte) (h : destReg i = some x) : Effect s i (s.setReg x v).advance
  | writeFlag {i : Instr} (x : Reg) (v : Byte) (b : Bool) (h : WritesFlag i) : Effect s i (s.setWithFlag x v b).advance
  | random (x : Reg) (nn v : Byte) : Effect s (.rnd x nn) (s.drawn.setReg x v).advance
  | setAddress {i : Instr} (v : Word) (h : SetsAddress i) : Effect s i (s.setI v).advance
  | setTimer (x : Reg) : Effect s (.ldDtVx x) (s.setDt (s.reg x)).advance
  | hook (x : Reg) : Effect s (.ldStVx x) s.advance
  | stall (x : Reg) (h : s.input.last = none) : Effect s (.ldVxK x) s
  | skip {i : Instr} (c : Bool) (h : IsSkip i) : Effect s i (s.skipIf c)
  | jump (nnn : Addr12) : Effect s (.jp nnn) (s.setPc (addrOfLiteral nnn))
  | jumpIndexed (nnn : Addr12) :
      Effect s (.jpV0 nnn) (s.setPc (addrOfLiteral nnn + wordOfByte (s.reg 0x0#4)))
  | call (nnn : Addr12) (h : ¬∃ d, s.cfg.stackDepth = some d ∧ d ≤ s.stack.length) :
      Effect s (.call nnn) ((s.setStack (s.stack ++ [s.pc + 2#16])).setPc (addrOfLiteral nnn))
  | ret (below : List Word) (v : Word) (h : s.stack = below ++ [v]) : Effect s .ret ((s.setStack below).setPc v)
  | clear : Effect s .cls (s.setFb (Display.blank s.cfg)).advance
  | draw (x y : Reg) (n : Nat) (bytes : List Byte) (x0 y0 : Nat) (b : Bool) :
      Effect s (.drw x y n) ((s.setFb (Display.draw s.cfg bytes x0 y0 s.fb).1).setReg regF (flagByte b)).advance
  | storeDigits (x : Reg) (bytes : List Byte) (h : s.i.toNat + bytes.length ≤ memSize) :
      Effect s (.ldB x) (s.pokes s.i.toNat bytes).advance
  | storeBlock (x : Reg) (bytes : List Byte) (v : Word) (h : s.i.toNat + bytes.length ≤ memSize) :
      Effect s (.storeRegs x) ((s.pokes s.i.toNat bytes).setI v).advance
  | loadBlock (x : Reg) (bytes : List Byte) (v : Word) (h : bytes.length = x.toNat + 1) :
      Effect s (.loadRegs x) ((s.setRegs bytes).setI v).advance

section Classification

variable (s : State)

/-- A fault records a well-formed record at `pc` (R203) and does nothing else. -/
theorem exec_of_execFaults {i : Instr} (h : ExecFaults i s) : ∃ f : FaultRecord,
    exec i s = .next { s with fault := some f } ∧ f.atPc = s.pc ∧ f.WellFormed := by
  rcases h with ⟨rfl, hempty⟩ | ⟨⟨nnn, rfl⟩, hfull⟩ | ⟨h0, hout⟩
  · exact ⟨_, exec_ret_of_empty s hempty, rfl, rfl, rfl⟩
  · exact ⟨_, exec_call_of_full s nnn hfull, rfl, rfl, nnn, rfl⟩
  · have hi := s.i.isLt
    exact ⟨_, exec_of_outOfBounds s h0 hout, rfl, ⟨_, rfl, le_max_right _ _, max_le (by omega) (by decide)⟩,
      .inr ⟨i, rfl, h0⟩⟩

/-- Inside memory, or with no address at all, a data access does not fault. -/
theorem fits_of_not_execFaults {i : Instr} (h : ¬ExecFaults i s) :
    dataLength i = 0 ∨ s.i.toNat + dataLength i ≤ memSize := by
  by_contra hc
  exact h (.inr (.inr (by omega)))

/-- By the instruction: outside the conditions of R201 it completes with the effect of its kind. -/
theorem exec_effect {i : Instr} (h : ¬ExecFaults i s) : ∃ t, exec i s = .next t ∧ Effect s i t := by
  have hfits := fits_of_not_execFaults s h
  cases i with
  | cls => exact ⟨_, exec_cls s, .clear⟩
  | ret =>
    have hne : s.stack ≠ [] := fun he => h (.inl ⟨rfl, he⟩)
    have hstack := (List.dropLast_append_getLast hne).symm
    exact ⟨_, exec_ret_of_append s hstack, .ret _ _ hstack⟩
  | jp nnn => exact ⟨_, exec_jp s nnn, .jump nnn⟩
  | call nnn =>
    have hroom : ¬∃ d, s.cfg.stackDepth = some d ∧ d ≤ s.stack.length := fun hd => h (.inr (.inl ⟨⟨nnn, rfl⟩, hd⟩))
    exact ⟨_, exec_call_of_room s nnn hroom, .call nnn hroom⟩
  | seImm x nn => exact ⟨_, exec_seImm s x nn, .skip _ (.inl ⟨x, nn, .inl rfl⟩)⟩
  | sneImm x nn => exact ⟨_, exec_sneImm s x nn, .skip _ (.inl ⟨x, nn, .inr rfl⟩)⟩
  | seReg x y => exact ⟨_, exec_seReg s x y, .skip _ (.inr (.inl ⟨x, y, .inl rfl⟩))⟩
  | sneReg x y => exact ⟨_, exec_sneReg s x y, .skip _ (.inr (.inl ⟨x, y, .inr rfl⟩))⟩
  | skp x => exact ⟨_, exec_skp s x, .skip _ (.inr (.inr ⟨x, .inl rfl⟩))⟩
  | sknp x => exact ⟨_, exec_sknp s x, .skip _ (.inr (.inr ⟨x, .inr rfl⟩))⟩
  | ldImm x nn => exact ⟨_, exec_ldImm s x nn, .writeReg _ rfl⟩
  | addImm x nn => exact ⟨_, exec_addImm s x nn, .writeReg _ rfl⟩
  | ldReg x y => exact ⟨_, exec_ldReg s x y, .writeReg _ rfl⟩
  | orReg x y => exact ⟨_, exec_orReg s x y, .writeReg _ rfl⟩
  | andReg x y => exact ⟨_, exec_andReg s x y, .writeReg _ rfl⟩
  | xorReg x y => exact ⟨_, exec_xorReg s x y, .writeReg _ rfl⟩
  | ldVxDt x => exact ⟨_, exec_ldVxDt s x, .writeReg _ rfl⟩
  | ldVxK x =>
    cases hk : s.input.last with
    | none => exact ⟨_, exec_ldVxK_of_none s x hk, .stall x hk⟩
    | some k => exact ⟨_, exec_ldVxK_of_some s x hk, .writeReg _ rfl⟩
  | addReg x y => exact ⟨_, exec_addReg s x y, .writeFlag _ _ _ ⟨x, y, .inl rfl⟩⟩
  | subReg x y => exact ⟨_, exec_subReg s x y, .writeFlag _ _ _ ⟨x, y, .inr (.inl rfl)⟩⟩
  | shr x y => exact ⟨_, exec_shr s x y, .writeFlag _ _ _ ⟨x, y, .inr (.inr (.inl rfl))⟩⟩
  | subnReg x y => exact ⟨_, exec_subnReg s x y, .writeFlag _ _ _ ⟨x, y, .inr (.inr (.inr (.inl rfl)))⟩⟩
  | shl x y => exact ⟨_, exec_shl s x y, .writeFlag _ _ _ ⟨x, y, .inr (.inr (.inr (.inr rfl)))⟩⟩
  | rnd x nn => exact ⟨_, exec_rnd s x nn, .random x nn _⟩
  | ldI nnn => exact ⟨_, exec_ldI s nnn, .setAddress _ (.inl ⟨nnn, rfl⟩)⟩
  | addI x => exact ⟨_, exec_addI s x, .setAddress _ (.inr ⟨x, .inl rfl⟩)⟩
  | ldF x => exact ⟨_, exec_ldF s x, .setAddress _ (.inr ⟨x, .inr rfl⟩)⟩
  | jpV0 nnn => exact ⟨_, exec_jpV0 s nnn, .jumpIndexed nnn⟩
  | ldDtVx x => exact ⟨_, exec_ldDtVx s x, .setTimer x⟩
  | ldStVx x => exact ⟨_, exec_ldStVx s x, .hook x⟩
  | drw x y n => exact ⟨_, exec_drw_of_fits s x y hfits, .draw x y n _ _ _ _⟩
  | ldB x =>
    simp only [dataLength] at hfits
    exact ⟨_, exec_ldB_of_fits s x (by omega), .storeDigits x _ (by rw [decimalDigits_length]; omega)⟩
  | storeRegs x =>
    simp only [dataLength] at hfits
    exact ⟨_, exec_storeRegs_of_fits s (by omega), .storeBlock x _ _ (by rw [regsUpTo_length]; omega)⟩
  | loadRegs x =>
    simp only [dataLength] at hfits
    exact ⟨_, exec_loadRegs_of_fits s (by omega), .loadBlock x _ _ (by simp)⟩

end Classification

/-- Inversion of an executed instruction: a fault under the conditions of R201, or an effect. -/
theorem exec_cases {i : Instr} {s t : State} (h : exec i s = .next t) :
    (ExecFaults i s ∧ ∃ f : FaultRecord, t = { s with fault := some f } ∧ f.atPc = s.pc ∧ f.WellFormed) ∨
    (¬ExecFaults i s ∧ Effect s i t) := by
  by_cases hf : ExecFaults i s
  · obtain ⟨f, hexec, hpc, hwf⟩ := exec_of_execFaults s hf
    exact .inl ⟨hf, f, Host.Outcome.next.inj (h.symm.trans hexec), hpc, hwf⟩
  · obtain ⟨t', hexec, heff⟩ := exec_effect s hf
    exact .inr ⟨hf, Host.Outcome.next.inj (h.symm.trans hexec) ▸ heff⟩

/-! ## What the effects change -/

section Writers

variable {s t : State} {i : Instr}

/-- No effect changes the parameters, the fault record or the input. -/
theorem Effect.keeps (h : Effect s i t) :
    t.cfg = s.cfg ∧ t.fault = s.fault ∧ t.input = s.input ∧ t.pending = s.pending := by
  cases h <;> simp [skipIf_eq]

/-- The timer is written by `LD DT, Vx` only. -/
theorem Effect.timer (h : Effect s i t) : t.dt = s.dt ∨ ∃ x, i = .ldDtVx x ∧ t.dt = s.reg x := by
  cases h with
  | setTimer x => exact .inr ⟨x, rfl, rfl⟩
  | _ => left; simp [skipIf_eq]

/-- The instructions that can write `VF`: the flag writers, and those whose destination it is (10_state.md R39). -/
theorem Effect.flagRegister (h : Effect s i t) (hne : t.reg 0xF#4 ≠ s.reg 0xF#4) :
    WritesFlag i ∨ (∃ x y n, i = .drw x y n) ∨ destReg i = some 0xF#4 ∨ (∃ nn, i = .rnd 0xF#4 nn) ∨
      i = .loadRegs 0xF#4 := by
  cases h with
  | writeReg v hx =>
    obtain rfl : 0xF#4 = _ := by_contra fun hn => hne (setReg_reg_of_ne s v hn)
    exact .inr (.inr (.inl hx))
  | writeFlag x v b hf => exact .inl hf
  | random x nn v =>
    obtain rfl : 0xF#4 = x := by_contra fun hn => hne (setReg_reg_of_ne s.drawn v hn)
    exact .inr (.inr (.inr (.inl ⟨nn, rfl⟩)))
  | draw x y n => exact .inr (.inl ⟨x, y, n, rfl⟩)
  | loadBlock x bytes v hlen =>
    have hx : bytes.length = 16 := by
      by_contra hn
      have hlt := x.isLt
      refine hne ?_
      rw [advance_reg, setI_reg, setRegs_reg, List.getD_eq_default _ _ (by simp; omega)]
    have : x = 0xF#4 := BitVec.eq_of_toNat_eq (by simp; omega)
    exact .inr (.inr (.inr (.inr (this ▸ rfl))))
  | _ => exact absurd (by simp [skipIf_eq]) hne

/-- `pc` advances by 2, but for the exceptions of 10_state.md R24. -/
theorem Effect.pc (h : Effect s i t) :
    t.pc = s.pc + 2#16 ∨ (i = .ret ∨ ∃ nnn, i = .jp nnn ∨ i = .call nnn ∨ i = .jpV0 nnn) ∨
    (t.pc = s.pc + 4#16 ∧ IsSkip i) ∨ (t.pc = s.pc ∧ s.input.last = none ∧ ∃ x, i = .ldVxK x) := by
  cases h with
  | stall x hk => exact .inr (.inr (.inr ⟨rfl, hk, x, rfl⟩))
  | skip c hi =>
    cases c with
    | false => exact .inl rfl
    | true => exact .inr (.inr (.inl ⟨rfl, hi⟩))
  | jump nnn => exact .inr (.inl (.inr ⟨nnn, .inl rfl⟩))
  | call nnn => exact .inr (.inl (.inr ⟨nnn, .inr (.inl rfl)⟩))
  | jumpIndexed nnn => exact .inr (.inl (.inr ⟨nnn, .inr (.inr rfl)⟩))
  | ret => exact .inr (.inl (.inl rfl))
  | _ => left; simp

/-- The stack is written by `RET` and `CALL` only. -/
theorem Effect.stack (h : Effect s i t) : t.stack = s.stack ∨ i = .ret ∨ ∃ nnn, i = .call nnn := by
  cases h with
  | call nnn => exact .inr (.inr ⟨nnn, rfl⟩)
  | ret => exact .inr (.inl rfl)
  | _ => left; simp [skipIf_eq]

/-- The display is written by `CLS` and `DRW` only. -/
theorem Effect.display (h : Effect s i t) : t.fb = s.fb ∨ i = .cls ∨ ∃ x y n, i = .drw x y n := by
  cases h with
  | clear => exact .inr (.inl rfl)
  | draw x y n => exact .inr (.inr ⟨x, y, n, rfl⟩)
  | _ => left; simp [skipIf_eq]

/-- Memory is written by the decimal store and the block store only. -/
theorem Effect.memory (h : Effect s i t) : t.mem = s.mem ∨ ∃ x, i = .ldB x ∨ i = .storeRegs x := by
  cases h with
  | storeDigits x => exact .inr ⟨x, .inl rfl⟩
  | storeBlock x => exact .inr ⟨x, .inr rfl⟩
  | _ => left; simp [skipIf_eq]

/-- `I` is written by the instructions that compute it and by the block moves only. -/
theorem Effect.address (h : Effect s i t) : t.i = s.i ∨ SetsAddress i ∨ ∃ x, i = .storeRegs x ∨ i = .loadRegs x := by
  cases h with
  | setAddress v hi => exact .inr (.inl hi)
  | storeBlock x => exact .inr (.inr ⟨x, .inl rfl⟩)
  | loadBlock x => exact .inr (.inr ⟨x, .inr rfl⟩)
  | _ => left; simp [skipIf_eq]

/-- The random port is used by `RND` only. -/
theorem Effect.randomPort (h : Effect s i t) :
    (t.random = s.random ∧ t.draws = s.draws) ∨ ∃ x nn, i = .rnd x nn := by
  cases h with
  | random x nn => exact .inr ⟨x, nn, rfl⟩
  | _ => left; simp [skipIf_eq]

end Writers

/-! ## The rules about all instructions -/

/-- Settles O14: the faults are the conditions of `ExecFaults`, and an effect keeps the empty record. -/
theorem executeFaultsExactly : Obligations.ExecuteFaultsExactly := by
  intro i s hs
  by_cases hf : ExecFaults i s
  · obtain ⟨f, hexec, -⟩ := exec_of_execFaults s hf
    exact ⟨_, hexec, iff_of_true rfl hf⟩
  · obtain ⟨t, hexec, heff⟩ := exec_effect s hf
    obtain ⟨-, hfault, -⟩ := heff.keeps
    exact ⟨t, hexec, iff_of_false (by simp [hfault, hs]) hf⟩

/-- The instructions with a destination are those that R39 lists for the destination `VF`. -/
theorem destReg_flag {i : Instr} (h : destReg i = some 0xF#4) :
    (∃ nn, i = .ldImm 0xF#4 nn ∨ i = .addImm 0xF#4 nn ∨ i = .rnd 0xF#4 nn) ∨
    (∃ y, i = .ldReg 0xF#4 y ∨ i = .orReg 0xF#4 y ∨ i = .andReg 0xF#4 y ∨ i = .xorReg 0xF#4 y) ∨
    i = .ldVxDt 0xF#4 ∨ i = .ldVxK 0xF#4 := by
  cases i <;> simp_all [destReg]

/-- Settles O19: a fault keeps the registers, and the effects that can change `VF` are listed by `Effect.flagRegister`. -/
theorem flagRegisterWriters : Obligations.FlagRegisterWriters := by
  intro i s t hexec hne
  rcases exec_cases hexec with ⟨-, f, rfl, -⟩ | ⟨-, heff⟩
  · exact absurd rfl hne
  · rcases heff.flagRegister hne with h | h | h | ⟨nn, h⟩ | h
    · exact .inl h
    · exact .inr (.inl h)
    · rcases destReg_flag h with h | h | h | h
      · exact .inr (.inr (.inl h))
      · exact .inr (.inr (.inr (.inl h)))
      · exact .inr (.inr (.inr (.inr (.inl h))))
      · exact .inr (.inr (.inr (.inr (.inr (.inl h)))))
    · exact .inr (.inr (.inl ⟨nn, .inr (.inr h)⟩))
    · exact .inr (.inr (.inr (.inr (.inr (.inr h)))))

/-- Settles O20: without a fault the instruction has an effect, and `Effect.pc` says where it leaves `pc`. -/
theorem programCounterAdvance : Obligations.ProgramCounterAdvance := by
  intro i s t _ hexec ht
  rcases exec_cases hexec with ⟨-, f, rfl, -⟩ | ⟨-, heff⟩
  · cases ht
  · exact heff.pc

/-- Settles O21: a fault writes none of the parts, and each part has its list of effects that write it. -/
theorem writersOfEachPart : Obligations.WritersOfEachPart := by
  intro i s t hexec
  rcases exec_cases hexec with ⟨-, f, rfl, -⟩ | ⟨-, heff⟩
  · simp
  · refine ⟨heff.stack.resolve_left, heff.display.resolve_left, heff.memory.resolve_left, fun hne => ?_, fun hne => ?_,
      fun hne => heff.randomPort.resolve_left fun ⟨hr, hd⟩ => hne.elim (absurd hr) (absurd hd)⟩
    · rcases heff.address.resolve_left hne with (h | ⟨x, h⟩) | ⟨x, h⟩
      · exact .inl h
      · exact .inr ⟨x, h.imp_right .inl⟩
      · exact .inr ⟨x, .inr (.inr h)⟩
    · obtain ⟨x, hi, -⟩ := heff.timer.resolve_left hne
      exact ⟨x, hi⟩

end Sys2Proof.Machine
end

section
/-! PROOFS. The course of one step (40_control_flow.md R100 to R103): what it runs, when it faults, and what every step
changes. -/

namespace Sys2Proof.Machine

/-! ## Fetch, decode, execute -/

section Course

variable {s : State}

/-- A machine that is not halted, with legal parameters and snapshot, samples, ticks and executes one instruction. -/
theorem step_of_running (hs : s.fault = none) (hc : s.cfg.wf = true) (hi : s.sample.input.wf = true) :
    step s = executeOne s.sample.tick := by
  simp [step, stepOnce, hs, hc, hi]

theorem step_of_halted {f : FaultRecord} (hf : s.fault = some f) : step s = .next s := by
  simp [step, stepOnce, hf]

theorem executeOne_of_fetch_error {a : Nat} (h : s.fetch = .error a) :
    executeOne s = .next (s.raise .memoryOutOfBounds none (some a)) := by
  rw [executeOne, h]

theorem executeOne_of_unknown {op : Word} (h : s.fetch = .ok op) (hd : decodeWord op = none) :
    executeOne s = .next (s.raise .unknownOpcode (some op) none) := by
  rw [executeOne, h]
  simp only [hd]

theorem executeOne_of_decode {op : Word} {i : Instr} (h : s.fetch = .ok op) (hd : decodeWord op = some i) :
    executeOne s = exec i s := by
  rw [executeOne, h]
  simp only [hd]

theorem fetch_of_lt (h : s.pc.toNat + 1 < memSize) :
    s.fetch = .ok (wordOfBytes (s.byteAt s.pc.toNat) (s.byteAt (s.pc.toNat + 1))) := by rw [fetch_eq, if_pos h]

theorem fetch_of_ge (h : memSize ≤ s.pc.toNat + 1) : s.fetch = .error (max s.pc.toNat memSize) := by
  rw [fetch_eq, if_neg (Nat.not_lt_of_le h)]

theorem sample_tick_fetch : s.sample.tick.fetch = s.fetch := by rw [tick_fetch, sample_fetch]

/-- The step of a machine that is not halted runs the instruction that the fetched word decodes to. -/
theorem step_of_decode {op : Word} {i : Instr} (hs : s.fault = none) (hc : s.cfg.wf = true)
    (hi : s.sample.input.wf = true) (hfetch : s.fetch = .ok op) (hd : decodeWord op = some i) :
    step s = exec i s.sample.tick := by
  rw [step_of_running hs hc hi, executeOne_of_decode (sample_tick_fetch.trans hfetch) hd]

/-- Sampling and ticking change the timer, the snapshot and the supply of snapshots only. -/
theorem sample_tick_eq : s.sample.tick =
    { s with dt := s.sample.tick.dt, input := s.sample.tick.input, pending := s.sample.tick.pending } := by
  rw [tick_eq, sample_eq]
  rfl

end Course

/-- Settles O7: the state it runs on is the sampled and ticked one. -/
theorem stepRunsDecodedInstruction : Obligations.StepRunsDecodedInstruction := by
  intro s i hs hc hi hpc hd
  refine ⟨s.sample.tick, step_of_decode hs hc hi (fetch_of_lt hpc) hd, ?_, fun h => ?_, fun n rest h => ?_,
    sample_tick_eq⟩
  · rw [tick_dt, sample_dt]
  · simp [State.sample, h]
  · simp [State.sample, h]

/-- Settles O8: the first test of a step is whether the machine is halted. -/
theorem haltedMachineStands : Obligations.HaltedMachineStands := fun _ _ => step_of_halted

/-- Settles O9: the fetch names the first of the two addresses that is out of bounds. -/
theorem fetchOutOfBoundsFaults : Obligations.FetchOutOfBoundsFaults := by
  intro s hs hc hi hpc
  have hstep := (step_of_running hs hc hi).trans
    (executeOne_of_fetch_error (sample_tick_fetch.trans (fetch_of_ge hpc)))
  have haddress : max s.pc.toNat memSize = if memSize ≤ s.pc.toNat then s.pc.toNat else s.pc.toNat + 1 := by
    split <;> omega
  exact ⟨_, _, hstep, rfl, rfl, rfl, by simp, rfl, congrArg some haddress, by simp, onlyChanges_raise _ _ _ _⟩

/-- Settles O10: the fetched word decodes to nothing and is recorded. -/
theorem unknownWordFaults : Obligations.UnknownWordFaults := by
  intro s op hs hc hi hpc hop hd
  have hstep := (step_of_running hs hc hi).trans
    (executeOne_of_unknown (sample_tick_fetch.trans ((fetch_of_lt hpc).trans (hop ▸ rfl))) hd)
  exact ⟨_, _, hstep, rfl, rfl, rfl, by simp, rfl, rfl, by simp, onlyChanges_raise _ _ _ _⟩

/-! ## The snapshot (10_state.md R33) -/

theorem inputWf_iff (n : Input) : n.wf = true ↔
    (∀ k, n.last = some k → n.keys.getLsbD k.toNat = true) ∧ (n.last = none ↔ n.keys = 0#16) := by
  cases hk : n.last with
  | none => simp [Input.wf, hk]
  | some k =>
    have hpressed : n.keys.getLsbD k.toNat = true → n.keys ≠ 0#16 := fun h h0 => by simp [h0] at h
    simpa [Input.wf, hk] using hpressed

/-- Settles O11: the duties by whether there is a last key; the step and the host's operation test them. -/
theorem brokenSnapshotRefused : Obligations.BrokenSnapshotRefused := by
  refine ⟨inputWf_iff, fun s hs hc hi => ?_, fun s n hn => ?_, fun s n hn => ?_⟩
  · simp [step, stepOnce, hs, hc, hi]
  · simp [State.setInput, hn]
  · exact ⟨{ s with input := n }, if_pos hn, rfl, rfl⟩

/-! ## What a step can do -/

section Outcome

variable {s t : State}

theorem exec_next (i : Instr) (s : State) : ∃ t, exec i s = .next t := by
  by_cases hf : ExecFaults i s
  · obtain ⟨f, hexec, -⟩ := exec_of_execFaults s hf
    exact ⟨_, hexec⟩
  · obtain ⟨t, hexec, -⟩ := exec_effect s hf
    exact ⟨t, hexec⟩

theorem executeOne_next (s : State) : ∃ t, executeOne s = .next t := by
  cases hfetch : s.fetch with
  | error a => exact ⟨_, executeOne_of_fetch_error hfetch⟩
  | ok op =>
    cases hd : decodeWord op with
    | none => exact ⟨_, executeOne_of_unknown hfetch hd⟩
    | some i => exact executeOne_of_decode hfetch hd ▸ exec_next i s

/-- A faulting step: the state with the snapshot sampled, the timer ticked and a well-formed record at `pc` (R204). -/
def FaultsAt (s t : State) : Prop :=
  ∃ f : FaultRecord, t = { s.sample.tick with fault := some f } ∧ f.atPc = s.pc ∧ f.WellFormed

/-- Inversion of a step: it leaves a halted machine alone; else it faults, or the fetched instruction has its effect. -/
theorem step_outcome (h : step s = .next t) :
    (s.fault ≠ none ∧ t = s) ∨
    (s.fault = none ∧ (FaultsAt s t ∨
      ∃ i, s.fetch = .ok (encode i) ∧ s.pc.toNat + 1 < memSize ∧ Effect s.sample.tick i t)) := by
  have hpc : s.sample.tick.pc = s.pc := by rw [tick_pc, sample_pc]
  rcases step_cases h with hhalted | ⟨hs, -, -, ⟨-, rfl⟩ | ⟨op, hfetch, hlt, ⟨hd, rfl⟩ | ⟨i, hd, hexec⟩⟩⟩
  · exact .inl hhalted
  · have hword := s.pc.isLt
    exact .inr ⟨hs, .inl ⟨_, rfl, hpc, ⟨_, rfl, le_max_right _ _, max_le (by omega) (by decide)⟩, .inl rfl⟩⟩
  · exact .inr ⟨hs, .inl ⟨_, rfl, hpc, rfl, op, rfl, hd⟩⟩
  · obtain ⟨rfl, -⟩ := encode_of_decodeWord hd
    refine .inr ⟨hs, ?_⟩
    rcases exec_cases hexec with ⟨-, f, ht, hat, hwf⟩ | ⟨-, heff⟩
    · exact .inl ⟨f, ht, hat.trans hpc, hwf⟩
    · exact .inr ⟨i, hfetch, hlt, heff⟩

end Outcome

/-- Settles O12: no test of the step refuses, and fetch, decode and execute always answer a next state. -/
theorem stepAlwaysAnswersNext : Obligations.StepAlwaysAnswersNext := by
  intro s hc hi
  cases hs : s.fault with
  | some f => exact ⟨s, step_of_halted hs⟩
  | none => exact step_of_running hs hc hi ▸ executeOne_next s.sample.tick

/-- Settles O13: an effect records no fault, so a step that did is a faulting one. -/
theorem faultsArePrecise : Obligations.FaultsArePrecise := by
  intro s t f h hs ht
  rcases step_outcome h with ⟨hhalted, -⟩ | ⟨-, ⟨g, rfl, hat, hwf⟩ | ⟨i, -, -, heff⟩⟩
  · exact absurd hs hhalted
  · obtain rfl : g = f := Option.some.inj ht
    exact ⟨rfl, hat, hwf⟩
  · obtain ⟨-, hfault, -⟩ := heff.keeps
    rw [hfault, tick_fault, sample_fault, hs] at ht
    cases ht

/-- Settles O15: the step ticks before it faults or executes, and only one effect writes the timer. -/
theorem timerTicksEveryStep : Obligations.TimerTicksEveryStep := by
  intro s t hs h
  have htick : s.sample.tick.dt.toNat = s.dt.toNat - 1 := by rw [tick_dt, sample_dt]
  rcases step_outcome h with ⟨hhalted, -⟩ | ⟨-, ⟨g, rfl, -⟩ | ⟨i, hfetch, -, heff⟩⟩
  · exact absurd hs hhalted
  · exact .inl htick
  · rcases heff.timer with hdt | ⟨x, rfl, hdt⟩
    · exact .inl (hdt ▸ htick)
    · exact .inr ⟨x, hfetch, by rw [hdt, tick_reg, sample_reg]⟩

/-- Settles O18: neither a fault nor an effect changes the parameters or, after the sampling, the input. -/
theorem stepKeepsParametersAndInput : Obligations.StepKeepsParametersAndInput := by
  intro s t h
  rcases step_outcome h with ⟨hhalted, rfl⟩ | ⟨-, ⟨g, rfl, -⟩ | ⟨i, -, -, heff⟩⟩
  · exact ⟨rfl, fun hs => absurd hs hhalted⟩
  · simp
  · obtain ⟨hcfg, -, hinput, hpending⟩ := heff.keeps
    exact ⟨by simp [hcfg], fun _ => by simp [hinput, hpending]⟩

/-! ## The terminal state (70_reset_and_hazards.md R235) -/

/-- A jump to itself leaves the sampled and ticked state as it is. -/
theorem step_of_terminal {s : State} (h : s.Terminal) (hc : s.cfg.wf = true) (hi : s.sample.input.wf = true) :
    step s = .next s.sample.tick := by
  obtain ⟨hs, nnn, hfetch, hself⟩ := h
  have hstay : s.sample.tick.setPc (addrOfLiteral nnn) = s.sample.tick := by
    rw [hself, ← sample_pc s, ← tick_pc s.sample]
    rfl
  rw [step_of_decode hs hc hi hfetch (decodeWord_encode rfl), exec_jp, hstay]

/-- Settles O55: sampling and ticking keep everything that the statement names. -/
theorem terminalStateStands : Obligations.TerminalStateStands := by
  intro s hterm hc hi
  refine ⟨_, step_of_terminal hterm hc hi, ?_, by simp, by simp, by simp, by simp, by simp, by simp, ?_⟩
  · simpa [State.Terminal] using hterm
  · obtain ⟨hs, -⟩ := hterm
    simpa using hs

/-! ## A store before a fetch (20_memory.md R64) -/

/-- The bytes that a store instruction writes from `I` up: the digits of `Vx`, or the registers `V0 .. Vx`. -/
def StoresBytes (i : Instr) (bytes : List Byte) (s : State) : Prop :=
  ∃ x : Reg,
    (i = .ldB x ∧ bytes.map BitVec.toNat =
      [(s.reg x).toNat / 100, (s.reg x).toNat / 10 % 10, (s.reg x).toNat % 10]) ∨
    (i = .storeRegs x ∧ bytes.length = x.toNat + 1 ∧ ∀ k : Reg, k.toNat ≤ x.toNat → bytes.getD k.toNat 0#8 = s.reg k)

/-- Bytes with the values of the digits are the digits. -/
theorem eq_decimalDigits {v : Byte} {bytes : List Byte}
    (h : bytes.map BitVec.toNat = [v.toNat / 100, v.toNat / 10 % 10, v.toNat % 10]) : bytes = decimalDigits v :=
  List.map_injective_iff.2 (fun _ _ => BitVec.eq_of_toNat_eq) (h.trans (decimalDigits_toNat v).symm)

/-- As many bytes as registers up to `Vx`, each the register of its place, are those registers. -/
theorem eq_regsUpTo {s : State} {x : Reg} {bytes : List Byte} (hlen : bytes.length = x.toNat + 1)
    (h : ∀ k : Reg, k.toNat ≤ x.toNat → bytes.getD k.toNat 0#8 = s.reg k) : bytes = s.regsUpTo x := by
  refine List.ext_getElem (hlen.trans (regsUpTo_length s x).symm) fun k hk hk' => ?_
  have hx := x.isLt
  have hreg : (BitVec.ofNat 4 k).toNat = k := Nat.mod_eq_of_lt (by omega)
  have hle : (BitVec.ofNat 4 k).toNat ≤ x.toNat := by omega
  have hget := (h _ hle).trans (regsUpTo_getD s x _ 0#8 hle).symm
  rwa [hreg, List.getD_eq_getElem _ _ hk, List.getD_eq_getElem _ _ hk'] at hget

/-- A store of bytes inside memory advances `pc`, makes memory what `State.byteAfterStore` says, and keeps the parameters and
the fault record. -/
theorem exec_store {i : Instr} {bytes : List Byte} {s : State} (hstore : StoresBytes i bytes s)
    (hfits : s.i.toNat + bytes.length ≤ memSize) :
    ∃ t, exec i s = .next t ∧ t.pc = s.pc + 2#16 ∧ (∀ a, t.byteAt a = s.byteAfterStore bytes a) ∧
      t.cfg = s.cfg ∧ t.fault = s.fault := by
  obtain ⟨x, ⟨rfl, hdigits⟩ | ⟨rfl, hlen, hregs⟩⟩ := hstore
  · obtain rfl := eq_decimalDigits hdigits
    exact ⟨_, exec_ldB_of_fits s x hfits, by simp, fun a => pokes_byteAt s _ _ a, by simp, by simp⟩
  · obtain rfl := eq_regsUpTo hlen hregs
    exact ⟨_, exec_storeRegs_of_fits s (by omega), by simp, fun a => pokes_byteAt s _ _ a, by simp, by simp⟩

/-- Settles O54: the next fetch reads memory as the store left it. -/
theorem storeSeenByNextFetch : Obligations.StoreSeenByNextFetch := by
  intro i bytes s op hstore hfits hpc hop
  obtain ⟨t, hexec, htpc, hbyte, hcfg, hfault⟩ := exec_store hstore hfits
  have hpc2 : t.pc.toNat = s.pc.toNat + 2 := by
    have hlt : s.pc.toNat + 2 < 2 ^ 16 := Nat.lt_trans (by omega) (show memSize < 2 ^ 16 by decide)
    rw [htpc, BitVec.toNat_add]
    exact Nat.mod_eq_of_lt hlt
  have hfetch : t.fetch = .ok op := by
    rw [fetch_of_lt (by omega), hbyte, hbyte, hpc2, hop]
  exact ⟨t, hexec, hfetch, fun hs hc hi j hj => step_of_decode (hfault.trans hs) (hcfg ▸ hc) hi hfetch hj⟩

end Sys2Proof.Machine
end

section
/-! PROOFS. The invariant of the machine: reset and the load meet it, every step and every move of the host keep it
(10_state.md sections 3, 5 and 7, 70_reset_and_hazards.md sections 1 and 2). -/

namespace Sys2Proof.Machine

/-! ## The effects keep each part of the invariant -/

section Parts

variable {s t : State} {i : Instr}

theorem Effect.memory_wf (h : Effect s i t) (hm : Memory.wf s.cfg s.mem) : Memory.wf s.cfg t.mem := by
  cases h with
  | storeDigits x bytes hfits => exact pokes_wf s _ bytes hfits hm
  | storeBlock x bytes v hfits => exact pokes_wf s _ bytes hfits hm
  | _ => simpa [skipIf_eq] using hm

theorem Effect.display_wf (h : Effect s i t) (hc : s.cfg.wf = true) (hd : Display.wf s.cfg s.fb = true) :
    Display.wf s.cfg t.fb = true := by
  cases h with
  | clear => exact Display.blank_wf s.cfg
  | draw x y n bytes x0 y0 b =>
    obtain ⟨hw, hh⟩ := Config.wf_grid _ hc
    exact Display.draw_wf s.cfg bytes x0 y0 s.fb hw hh hd
  | _ => simpa [skipIf_eq] using hd

/-- The call pushes only with room, and the return shortens the stack (10_state.md R27, R28). -/
theorem Effect.stackBounded (h : Effect s i t) (hb : s.StackBounded) : t.StackBounded := by
  intro d hd
  obtain ⟨hcfg, -⟩ := h.keeps
  rw [hcfg] at hd
  have hle := hb d hd
  cases h with
  | call nnn hroom =>
    have hlt : s.stack.length < d := Nat.lt_of_not_le fun hge => hroom ⟨d, hd, hge⟩
    simpa using hlt
  | ret below v hstack =>
    rw [hstack, List.length_append] at hle
    exact Nat.le_of_add_right_le hle
  | _ => simpa [skipIf_eq] using hle

theorem toNat_add_le (a b : Word) : (a + b).toNat ≤ a.toNat + b.toNat := by
  rw [BitVec.toNat_add]
  exact Nat.mod_le _ _

/-- The instruction stands below `MEM_SIZE - 1`, so what follows it and what it skips to is at most 0x1002; a literal is at most
0xFFF, and a return address is one that a call pushed (10_state.md R25). -/
theorem Effect.pcBounded (h : Effect s i t) (hp : s.PcBounded) (hlt : s.pc.toNat + 1 < memSize) : t.PcBounded := by
  obtain ⟨hpc, hstack⟩ := hp
  have hnext : (s.pc + 2#16).toNat ≤ 0x1000 := (toNat_add_le _ _).trans (Nat.add_le_add_right (Nat.le_of_lt_succ hlt) 1)
  have hskip : (s.pc + 4#16).toNat ≤ 0x1002 := (toNat_add_le _ _).trans (Nat.add_le_add_right (Nat.le_of_lt_succ hlt) 3)
  have hliteral : ∀ nnn : Addr12, (addrOfLiteral nnn).toNat ≤ 0xFFF := fun nnn =>
    addrOfLiteral_toNat nnn ▸ Nat.le_of_lt_succ nnn.isLt
  cases h with
  | jump nnn => exact ⟨(hliteral nnn).trans (by decide), hstack⟩
  | jumpIndexed nnn =>
    have hv := (s.reg 0x0#4).isLt
    have hn := nnn.isLt
    refine ⟨?_, hstack⟩
    rw [setPc_pc, addrOfLiteral_add_wordOfByte_toNat]
    omega
  | call nnn =>
    refine ⟨(hliteral nnn).trans (by decide), fun a ha => ?_⟩
    rcases List.mem_append.1 ha with ha | ha
    · exact hstack a ha
    · exact List.mem_singleton.1 ha ▸ hnext
  | ret below v hpop =>
    have hmem : ∀ a, a ∈ below ∨ a = v → a.toNat ≤ 0x1000 := fun a ha => hstack a (by simpa [hpop] using ha)
    exact ⟨(hmem v (.inr rfl)).trans (by decide), fun a ha => hmem a (.inl ha)⟩
  | skip c =>
    cases c with
    | false => exact ⟨hnext.trans (by decide), hstack⟩
    | true => exact ⟨hskip.trans (by decide), hstack⟩
  | stall => exact ⟨hpc, hstack⟩
  | _ => exact ⟨by simpa using hnext.trans (by decide), by simpa using hstack⟩

end Parts

/-! ## Every step keeps the invariant -/

section Step

variable {s t : State}

/-- The invariant does not speak of the timer or the input. -/
theorem inv_sample_tick (h : s.Inv) : s.sample.tick.Inv := by
  simpa [State.Inv, State.StackBounded, State.PcBounded, State.FaultRecorded] using h

/-- An effect keeps the invariant of a machine that is not halted. -/
theorem inv_of_effect {i : Instr} (h : s.Inv) (hs : s.fault = none) (hlt : s.pc.toNat + 1 < memSize)
    (heff : Effect s i t) : t.Inv := by
  obtain ⟨hc, hm, hd, hb, hp, -⟩ := h
  obtain ⟨hcfg, hfault, -⟩ := heff.keeps
  rw [State.Inv, hcfg]
  refine ⟨hc, heff.memory_wf hm, heff.display_wf hc hd, heff.stackBounded hb, heff.pcBounded hp hlt, fun f hf => ?_⟩
  rw [hfault, hs] at hf
  cases hf

/-- A faulting step sets a well-formed record at `pc` and keeps the rest. -/
theorem inv_of_faultsAt (h : s.Inv) (hf : FaultsAt s t) : t.Inv := by
  obtain ⟨f, rfl, hat, hwf⟩ := hf
  obtain ⟨hc, hm, hd, hb, hp, -⟩ := inv_sample_tick h
  refine ⟨hc, hm, hd, hb, hp, fun g hg => ?_⟩
  obtain rfl : f = g := Option.some.inj hg
  exact ⟨by simpa using hat, hwf⟩

end Step

/-- Settles O16: by what a step can do: it leaves a halted machine alone, faults, or has an effect. -/
theorem stepKeepsInvariant : Obligations.StepKeepsInvariant := by
  intro s t hinv h
  rcases step_outcome h with ⟨-, rfl⟩ | ⟨hs, hf | ⟨i, -, hlt, heff⟩⟩
  · exact hinv
  · exact inv_of_faultsAt hinv hf
  · exact inv_of_effect (inv_sample_tick hinv) (by simpa using hs) (by simpa using hlt) heff

/-! ## Reset (10_state.md R41) -/

theorem inv_resetWith {c : Config} (hc : c.wf = true) : (State.resetWith c).Inv := by
  have hpc : (State.resetWith c).pc.toNat ≤ 0x10FE := show (0x0200#16).toNat ≤ 0x10FE by decide
  exact ⟨hc, Memory.reset_wf c, Display.blank_wf c, fun d _ => Nat.zero_le d, ⟨hpc, List.forall_mem_nil _⟩,
    fun _ hf => nomatch hf⟩

/-- Settles O17: the default configuration is a legal one. -/
theorem resetMeetsInvariant : Obligations.ResetMeetsInvariant :=
  ⟨inv_resetWith (by decide), fun _ => inv_resetWith⟩

theorem resetWith_byteAt (c : Config) (a : Nat) : (State.resetWith c).byteAt a = Memory.unlisted c a := rfl

/-- The font of the default configuration lies at 0 and is followed by zeros. -/
theorem reset_byteAt (a : Nat) : State.reset.byteAt a = standardFont.getD a 0x00#8 := by
  rw [State.reset, resetWith_byteAt]
  rfl

/-- Settles O56: registers and pixels by their replication, the bytes by `reset_byteAt`. -/
theorem resetValues : Obligations.ResetValues := by
  obtain ⟨hrows, hwidth⟩ := (Display.wf_iff _ _).1 (Display.blank_wf Config.standard)
  refine ⟨rfl, rfl, fun r => ?_, rfl, rfl, hrows, hwidth, Display.pixel_blank Config.standard, rfl, rfl, rfl,
    fun a ha => ?_, fun k hk => ?_, fun a _ => reset_byteAt a⟩
  · simp [State.reg, State.reset, State.resetWith]
  · rw [reset_byteAt, List.getD_eq_default _ _ ha]
  · rw [reset_byteAt]
    interval_cases k <;> rfl

/-! ## The host (70_reset_and_hazards.md R232 to R234) -/

/-- Settles O57: the load is a store of the image into the reset machine. -/
theorem loadPlacesImage : Obligations.LoadPlacesImage := by
  intro c image
  constructor
  · intro hlen
    exact ⟨_, (load_next c image _).2 ⟨hlen, rfl⟩, fun k hk => pokes_byteAt_stored _ _ _ hk, pokes_pc _ _ _,
      onlyChanges_pokes _ _ _⟩
  · intro hlen
    exact if_pos hlen

/-- Settles O58, by the move. -/
theorem hostMovesAreConfined : Obligations.HostMovesAreConfined := by
  intro s t m h
  cases m with
  | setInput n =>
    rw [State.hostMove, State.setInput] at h
    split at h
    · next hn => exact .inr (.inl ⟨n, rfl, hn, (Host.Outcome.next.inj h).symm⟩)
    · cases h
  | supplyRandom bytes => exact .inr (.inr (.inl ⟨bytes, rfl, (Host.Outcome.next.inj h).symm⟩))
  | benchSetTimer v => exact .inr (.inr (.inr ⟨v, rfl, (Host.Outcome.next.inj h).symm⟩))
  | step => exact .inl ⟨rfl, h⟩

/-- What holds between the moves of a session with the parameters `c`. -/
def SessionInv (c : Config) (s : State) : Prop := s.Inv ∧ s.cfg = c ∧ s.pending = []

section Session

variable {c : Config} {s t : State}

/-- A step takes no snapshot from an empty supply. -/
theorem step_pending_nil (h : step s = .next t) (hp : s.pending = []) : t.pending = [] := by
  obtain ⟨-, hinput⟩ := stepKeepsParametersAndInput s t h
  cases hs : s.fault with
  | none =>
    obtain ⟨-, hpending⟩ := hinput hs
    rw [hpending, State.sample, hp]
    exact hp
  | some f =>
    obtain rfl : s = t := Host.Outcome.next.inj ((step_of_halted hs).symm.trans h)
    exact hp

theorem sessionInv_load {image : List Byte} (hc : c.wf = true) (hlen : image.length ≤ memSize - origin) :
    SessionInv c ((State.resetWith c).pokes origin image) := by
  obtain ⟨-, hm, hrest⟩ := inv_resetWith hc
  have hmem : Memory.wf c ((State.resetWith c).pokes origin image).mem :=
    pokes_wf (State.resetWith c) origin image (Nat.add_le_of_le_sub' (by decide) hlen) hm
  rw [pokes_eq]
  exact ⟨⟨hc, hmem, hrest⟩, rfl, rfl⟩

theorem sessionInv_hostMove {m : HostMove} (h : SessionInv c s) (hmove : s.hostMove m = .next t) : SessionInv c t := by
  obtain ⟨hinv, hcfg, hpending⟩ := h
  rcases hostMovesAreConfined s t m hmove with ⟨-, hstep⟩ | ⟨n, -, -, rfl⟩ | ⟨bytes, -, rfl⟩ | ⟨v, -, rfl⟩
  · obtain ⟨hkept, -⟩ := stepKeepsParametersAndInput s t hstep
    exact ⟨stepKeepsInvariant s t hinv hstep, hkept.trans hcfg, step_pending_nil hstep hpending⟩
  all_goals exact ⟨hinv, hcfg, hpending⟩

theorem sessionInv_hostMoves {ms : List HostMove} (h : SessionInv c s) (hmoves : s.hostMoves ms = .next t) :
    SessionInv c t := by
  induction ms generalizing s with
  | nil => exact Host.Outcome.next.inj hmoves ▸ h
  | cons m ms ih =>
    obtain ⟨u, hmove, hrest⟩ := (hostMoves_cons s t m ms).1 hmoves
    exact ih (sessionInv_hostMove h hmove) hrest

end Session

/-- Settles O59: the loaded machine meets the session's invariant and every move keeps it. -/
theorem sessionsKeepInvariant : Obligations.SessionsKeepInvariant := by
  intro c image ms t hc h
  obtain ⟨hlen, hmoves⟩ := (session_next c image ms t).1 h
  exact sessionInv_hostMoves (sessionInv_load hc hlen) hmoves

end Sys2Proof.Machine
end
